-- ==== Sys2Proof/Word.lean ====
section
/-! DEFINITION. The word types of RBF and its two fixed-size byte groups (00_scope.md R8). -/

namespace Sys2Proof

/-- A byte, `u8` (R8). -/
abbrev Byte := BitVec 8

/-- A 16-bit word, `u16` (R8, R12). -/
abbrev Word16 := BitVec 16

/-- A step word `sw[10:0]` (R40). -/
abbrev StepWord := BitVec 11

/-- The 64-bit header value of a frame (R49). -/
abbrev Header := BitVec 64

/-- The three type code bytes of a frame, in arrival order (R45, R92). -/
structure TypeCode where
  b0 : Byte
  b1 : Byte
  b2 : Byte
  deriving DecidableEq, Repr

/-- Two bytes in arrival order: a datapoint id or a trailer (R92). -/
structure BytePair where
  first : Byte
  second : Byte
  deriving DecidableEq, Repr

def TypeCode.bytes (t : TypeCode) : List Byte := [t.b0, t.b1, t.b2]

def BytePair.bytes (p : BytePair) : List Byte := [p.first, p.second]

end Sys2Proof
end

