-- ==== Sys2Proof/Machine/Operands.lean ====
section
/-! DEFINITION. The constants the source fixes (00_scope.md R6) and the operand forms: bytes and slices of a byte
sequence, the halves of a word, the hexadecimal rendering (00_scope.md R8). -/

namespace Sys2Proof.Machine

/-- `MARKER`, first byte to arrive (R6, R29). -/
def marker0 : Byte := 0x01#8

/-- `MARKER`, second byte to arrive (R6, R29). -/
def marker1 : Byte := 0x00#8

/-- `MARKER` (R6). -/
def marker : List Byte := [marker0, marker1]

/-- `CRC_INIT` (R6). -/
def crcInitValue : Word16 := 0xFFFF#16

/-- `CRC_XOR` (R6, R70). -/
def crcXor : Word16 := 0xA001#16

/-- `HDR_LEN` (R6). -/
def hdrLen : Nat := 8

/-- `MIN_PAYLOAD` (R6). -/
def minPayload : Nat := 5

/-- `FRAME_MAX` (R6). -/
def frameMax : Nat := 263

/-- `s[i]` (R8). Outside the sequence R8 gives no element; every use stands behind a length test. -/
def byteAt (s : List Byte) (i : Nat) : Byte := s.getD i 0x00#8

/-- `s[i..j]`, both ends inclusive, empty when `j < i` (R8). -/
def slice (s : List Byte) (i j : Nat) : List Byte := (s.drop i).take (j + 1 - i)

/-- `last2(s)` (R8). -/
def last2 (s : List Byte) : List Byte := s.drop (s.length - 2)

/-- `len(s) >= 2 and last2(s) = MARKER`, the marker test of R74. -/
def endsInMarker (s : List Byte) : Bool := decide (2 ≤ s.length) && last2 s == marker

/-- `zext16(b)` (R8). -/
def zext16 (b : Byte) : Word16 := b.setWidth 16

/-- `lo(w) = w[7:0]` (R8). -/
def lo (w : Word16) : Byte := w.extractLsb' 0 8

/-- `hi(w) = w[15:8]` (R8). -/
def hi (w : Word16) : Byte := w.extractLsb' 8 8

/-- `w16(lo, hi)` (R8). -/
def w16 (l h : Byte) : Word16 := h ++ l

/-- The upper-case hexadecimal digit of a number below 16. -/
def hexDigit (n : Nat) : Char :=
  if n < 10 then Char.ofNat (48 + n) else Char.ofNat (55 + n)

/-- `hex2(b)` (R8). -/
def hex2 (b : Byte) : List Char := [hexDigit (b.toNat / 16), hexDigit (b.toNat % 16)]

/-- `hexstr(s)` (R8). -/
def hexstr (s : List Byte) : List Char := s.flatMap hex2

/-- The length byte `L` of a byte sequence, once it has one, zero-extended (R45, R46). -/
def lengthByte (s : List Byte) : Option Nat := s[4]?.map BitVec.toNat

/-- `len(s) >= 5 and len(s) = 8 + s[4]`, the completion test of R76. -/
def frameComplete (s : List Byte) : Bool :=
  match lengthByte s with
  | some l => decide (s.length = hdrLen + l)
  | none => false

/-- R45: a byte sequence is a Frame exactly when `len(f) >= 8`, `f[0..1] = 01 00` and `len(f) = 8 + f[4]`. -/
def isFrame (f : List Byte) : Bool :=
  decide (hdrLen ≤ f.length) && byteAt f 0 == marker0 && byteAt f 1 == marker1 && frameComplete f

end Sys2Proof.Machine
end

