-- ==== Sys2Proof/Config.lean ====
section
/-! DEFINITION. The two parameters the source leaves open (00_scope.md R7), as one configuration record. -/

namespace Sys2Proof

/-- Which trailer byte holds bits 7:0 of the declared checksum (R7, R97). -/
inductive TrailerOrder where
  | loFirst
  | hiFirst
  deriving DecidableEq, Repr

/-- Capacity of `buf` in bytes (R7, R78). -/
inductive BufCap where
  | unbounded
  | bounded (n : Nat)
  deriving DecidableEq, Repr

/-- The configuration, fixed for the life of the block (R7, R137). -/
structure Config where
  trailerOrder : TrailerOrder
  bufCap : BufCap
  deriving DecidableEq, Repr

/-- The defaults of R7. -/
def Config.default : Config := { trailerOrder := .loFirst, bufCap := .unbounded }

/-- R7: a finite `BUF_CAP` is at least 263. -/
def Config.wf (c : Config) : Bool :=
  match c.bufCap with
  | .unbounded => true
  | .bounded n => decide (263 ≤ n)

end Sys2Proof
end

