-- ==== Sys2Proof/Syntax.lean ====
section
/-! DEFINITION. The instructions, one constructor for each row of spec/opcode_table.json, the rows' names, and the two
encoded forms in which the host presents them (00_scope.md R5). -/

namespace Sys2Proof

/-- One constructor per row of the opcode table. `reset`, `synByte`, `synEoi`, `crcUpdate` and `crcInit` are the five
operations of the step word (R41). `frameReply`, `frameRequest` and `frameOther` are the classes of the wire Frame
(R47): a whole Frame as the host presents it with the pseudo-instruction `FRAME` of R57 (log 5). Its length byte is not a
field, since R45 makes it the number of payload bytes. -/
inductive Instr where
  | reset
  | synByte (d : Byte)
  | synEoi
  | crcUpdate (d : Byte)
  | crcInit
  | frameReply (flags : Byte) (typeCode : TypeCode) (payload : List Byte)
  | frameRequest (flags : Byte) (typeCode : TypeCode) (payload : List Byte)
  | frameOther (direction flags : Byte) (typeCode : TypeCode) (payload : List Byte)
  deriving DecidableEq, Repr

/-- The rows of the opcode table by name. -/
inductive Mnemonic where
  | reset
  | synByte
  | synEoi
  | crcUpdate
  | crcInit
  | frameReply
  | frameRequest
  | frameOther
  deriving DecidableEq, Repr

/-- The row an instruction stands for. -/
def Instr.mnemonic : Instr → Mnemonic
  | .reset => .reset
  | .synByte _ => .synByte
  | .synEoi => .synEoi
  | .crcUpdate _ => .crcUpdate
  | .crcInit => .crcInit
  | .frameReply _ _ _ => .frameReply
  | .frameRequest _ _ _ => .frameRequest
  | .frameOther _ _ _ _ => .frameOther

/-- One input of the host in its encoded form: a step word (R40), or the bytes of a wire Frame issued in one go (R45,
R57; log 5). -/
inductive Input where
  | word (sw : StepWord)
  | burst (bytes : List Byte)
  deriving DecidableEq, Repr

end Sys2Proof
end

