-- ==== Sys2Proof/Machine/State.lean ====
section
/-! DEFINITION. The machine's state as plain data (10_state.md), the event records of its two output channels
(30_encoding.md R54, R55), the reasons a step can stop, and the state after reset (R21). -/

namespace Sys2Proof.Machine

/-- The synchronizer's phase (R10). -/
inductive Mode where
  | hunt
  | frame
  | done
  | failed
  deriving DecidableEq, Repr

/-- The eight fields of R92, an output value and not state (R20). -/
structure Message where
  isReply : Bool
  flags : Byte
  payloadLength : Byte
  typeCode : TypeCode
  datapointId : BytePair
  subindex : Byte
  data : List Byte
  trailer : BytePair
  deriving DecidableEq, Repr

/-- An event of the primary channel (R54): `MSG` and `END`. -/
inductive Prim where
  | msg (message : Message) (crcCalc : Word16) (crcOk : Bool)
  | endOfPass (clean : Bool)
  deriving DecidableEq, Repr

/-- An event of the diagnostic channel (R55), which is also an exceptional condition of R113. -/
inductive Diag where
  | spurious (bytes : List Byte)
  | tooShort (frame : List Byte)
  | crcMismatch (crcCalc : Word16) (trailer : BytePair)
  | incomplete (part : List Byte)
  | overflow (held : List Byte) (dropped : Byte)
  deriving DecidableEq, Repr

/-- The two channel slots of one step (R9, R123). They are a pair, with no order between them (R35; log 17). -/
structure Slots where
  prim : Option Prim
  diag : Option Diag
  deriving DecidableEq, Repr

/-- Faults. There are none: every condition of R113 leaves a next state and no step word traps (R44, R106; log 11). -/
inductive Fault where
  deriving DecidableEq, Repr

/-- Refusals. -/
inductive Refusal where
  /-- Raised by `exec` for an arm without a meaning; no arm of this model is left so. Safe: the machine stops. -/
  | notModelled (mnemonic : String)
  /-- Raised by the completion of a frame in `SYN.BYTE` when the completed bytes are not a Frame, for which `parse` has
  no meaning and a model refuses (R90, D16; log 8). No state that satisfies R17 meets it. Safe: the machine stops. -/
  | parseNotAFrame
  /-- Raised by `step` when the next input is a burst whose bytes are not a Frame (R45; log 9). Safe: the machine stops,
  and the host can issue the same bytes as step words. -/
  | burstNotAFrame
  deriving DecidableEq, Repr

/-- The state: the three elements of R13, then the configuration (R7; log 3), the host's inputs not yet taken (R19 item
1; log 1) and the two output channels, one pair of slots for each step of the block (R19 items 3 and 4; log 2). -/
structure State where
  mode : Mode
  buf : List Byte
  crc : Word16
  cfg : Config
  input : List Input
  trace : List Slots
  deriving DecidableEq, Repr

/-- The state right after reset (R21, R135), with the default configuration of R7 and no input. -/
def State.reset : State :=
  { mode := .hunt, buf := [], crc := 0xFFFF#16, cfg := Config.default, input := [], trace := [] }

/-- The primary channel: its events in step order (R19 item 3, R35). -/
def State.primary (s : State) : List Prim := s.trace.filterMap Slots.prim

/-- The diagnostic channel: its events in step order (R19 item 4, R35). -/
def State.diagnostic (s : State) : List Diag := s.trace.filterMap Slots.diag

end Sys2Proof.Machine
end

