-- ==== Sys2Proof/Machine/Flags.lean ====
section
/-! DEFINITION. Everything RBF computes from its state without storing it: the conditions of R15, the position's phase
(R14), the status view (R16, R108), and the numeric codes of modes and events (R10, R54, R55, R113). -/

namespace Sys2Proof.Machine

/-- The numeric value of a mode (R10). -/
def Mode.code : Mode → BitVec 2
  | .hunt => 0#2
  | .frame => 1#2
  | .done => 2#2
  | .failed => 3#2

/-- `terminal` as a property of the mode (R10, R15). -/
def Mode.isTerminal : Mode → Bool
  | .hunt => false
  | .frame => false
  | .done => true
  | .failed => true

/-- `terminal` (R15). -/
def State.terminal (s : State) : Bool := s.mode.isTerminal

/-- `in_frame` (R15). -/
def State.inFrame (s : State) : Bool := s.mode == .frame

/-- `half_marker` (R15, R18). -/
def State.halfMarker (s : State) : Bool := s.mode == .hunt && s.buf.getLast? == some marker0

/-- The derived phase names of R14. -/
inductive Phase where
  | dir
  | flags
  | len
  | body
  deriving DecidableEq, Repr

/-- The role of the next byte in mode `FRAME` (R14); no phase outside that mode or before the marker. -/
def State.phase (s : State) : Option Phase :=
  if s.mode = .frame then
    match s.buf.length with
    | 0 => none
    | 1 => none
    | 2 => some .dir
    | 3 => some .flags
    | 4 => some .len
    | _ => some .body
  else none

/-- `rem`, the bytes still needed in phase `BODY` (R14). -/
def State.rem (s : State) : Option Nat :=
  if s.mode = .frame then (lengthByte s.buf).map (fun l => hdrLen + l - s.buf.length) else none

/-- `st_mode` (R16). -/
def State.stMode (s : State) : BitVec 2 := s.mode.code

/-- `st_buf_len` (R16). -/
def State.stBufLen (s : State) : Nat := s.buf.length

/-- `st_crc` (R16). -/
def State.stCrc (s : State) : Word16 := s.crc

/-- The width of `st_buf_len`: 9 bits for a capacity of 263 to 511, otherwise wide enough for the capacity, none when
unbounded (R16; log 13). -/
def stBufLenWidth (c : Config) : Option Nat :=
  match c.bufCap with
  | .unbounded => none
  | .bounded n => some (n.log2 + 1)

/-- The kind code of a primary event (R54). -/
def Prim.code : Prim → BitVec 2
  | .msg _ _ _ => 1#2
  | .endOfPass _ => 2#2

/-- The kind code of a diagnostic event, which is the cause code of R113 (R55). -/
def Diag.code : Diag → BitVec 3
  | .spurious _ => 1#3
  | .tooShort _ => 2#3
  | .crcMismatch _ _ => 3#3
  | .incomplete _ => 4#3
  | .overflow _ _ => 5#3

/-- The two kind codes of a step, 0 for an empty slot (R54, R55). -/
def Slots.codes (o : Slots) : BitVec 2 × BitVec 3 :=
  ((o.prim.map Prim.code).getD 0#2, (o.diag.map Diag.code).getD 0#3)

/-- Whether a condition is fatal to the pass (R113). -/
def Diag.fatal : Diag → Bool
  | .spurious _ => false
  | .tooShort _ => false
  | .crcMismatch _ _ => false
  | .incomplete _ => true
  | .overflow _ _ => true

end Sys2Proof.Machine
end

