-- ==== Sys2Proof/Machine/Ops.lean ====
section
/-! DEFINITION. The shared operations: writing the state elements, closing a step with its two event slots (00_scope.md
R9), and raising an exceptional condition (60_exceptions.md R113, R125). RBF has no return from an exception (R126). -/

namespace Sys2Proof.Machine

/-- What a meaning answers. -/
abbrev Result := Host.Outcome State Fault Refusal

/-- The state a result goes on with, if it goes on. -/
def Result.state (r : Result) : Option State :=
  match r with
  | .next s => some s
  | .fault _ => none
  | .refused _ => none

/-- Sequencing: the second part runs on the state the first one answers. -/
def Result.andThen (r : Result) (f : State → Result) : Result :=
  match r with
  | .next s => f s
  | .fault e => .fault e
  | .refused e => .refused e

/-- `mode <- v` (R9). -/
def State.setMode (s : State) (m : Mode) : State := { s with mode := m }

/-- `buf <- v` (R9). -/
def State.setBuf (s : State) (b : List Byte) : State := { s with buf := b }

/-- `crc <- v` (R9). -/
def State.setCrc (s : State) (c : Word16) : State := { s with crc := c }

/-- `BufAppend(b)` (R9, R33). -/
def State.bufAppend (s : State) (d : Byte) : State := s.setBuf (s.buf ++ [d])

/-- The end of a step of the block: `emit_prim` and `emit_diag` have filled its two slots, or left them empty (R9, R123,
R124). -/
def State.emit (s : State) (prim : Option Prim) (diag : Option Diag) : State :=
  { s with trace := s.trace ++ [⟨prim, diag⟩] }

/-- A step that emits no event. -/
def State.quiet (s : State) : State := s.emit none none

/-- The next input is taken from the host (R25, R27). -/
def State.takeInput (s : State) (rest : List Input) : State := { s with input := rest }

/-- `BUF_CAP is finite and n > BUF_CAP`, the capacity test of R74. -/
def capExceeded (cap : BufCap) (n : Nat) : Bool :=
  match cap with
  | .unbounded => false
  | .bounded c => decide (c < n)

/-- `mode` after a condition (R125). -/
def Diag.modeAfter : Diag → Mode
  | .spurious _ => .frame
  | .tooShort _ => .hunt
  | .crcMismatch _ _ => .hunt
  | .incomplete _ => .failed
  | .overflow _ _ => .failed

/-- `buf` after a condition (R125). -/
def Diag.bufAfter (x : Diag) (buf : List Byte) : List Byte :=
  match x with
  | .spurious _ => marker
  | .tooShort _ => []
  | .crcMismatch _ _ => []
  | .incomplete _ => buf
  | .overflow _ _ => buf

/-- The primary event of the step that raises a condition: a fatal one ends the pass with `END(clean = 0)` (R78, R81,
R117, R118); otherwise the event the step has of its own, the `MSG` beside a `CRC_MISMATCH` (R122). -/
def Diag.primWith (x : Diag) (own : Option Prim) : Option Prim :=
  if x.fatal then some (.endOfPass false) else own

/-- `raise X(info)` (R9, R113): the state change of R125 and the step's two slots. Nothing else is saved (R125). -/
def raise (x : Diag) (own : Option Prim) (s : State) : Result :=
  .next (((s.setMode x.modeAfter).setBuf (x.bufAfter s.buf)).emit (x.primWith own) (some x))

end Sys2Proof.Machine
end

