-- ==== Sys2Proof/Machine/Checksum.lean ====
section
/-! DEFINITION. The checksum engine (40_checksum.md): its functions and the meanings of `CRC.INIT` and `CRC.UPDATE`. -/

namespace Sys2Proof.Machine

/-- R60: one of the eight iterations; bit 0 is tested before the logical shift. -/
def crcBit (c : Word16) : Word16 :=
  if c.getLsbD 0 then (c >>> 1) ^^^ crcXor else c >>> 1

/-- `n` applications of `crcBit`; each is linear over XOR (R69 item 3). -/
def crcBits : Nat → Word16 → Word16
  | 0, c => c
  | n + 1, c => crcBits n (crcBit c)

/-- R61: the byte goes into bits 7:0, then exactly eight iterations. The laws R69 items 3 to 6 are laws of this function. -/
def crcUpdate (c : Word16) (b : Byte) : Word16 := crcBits 8 (c ^^^ zext16 b)

/-- The table `T[b]` of R69 item 4. -/
def crcTable (b : Byte) : Word16 := crcUpdate 0x0000#16 b

/-- R69 item 4: `crc_update` with its feedback taken from the table, as R62 lets a model compute it. -/
def crcUpdateByTable (c : Word16) (b : Byte) : Word16 := (c >>> 8) ^^^ crcTable (b ^^^ lo c)

/-- R63: the left fold of `crcUpdate` from `0xFFFF`, with no output transformation. Of nothing it is `0xFFFF` (R69 item 1),
of an appended sequence the fold goes on (R69 item 2), and a sequence followed by its checksum gives zero (R69 item 5). -/
def checksum16 (s : List Byte) : Word16 := s.foldl crcUpdate crcInitValue

/-- R67: the checksum over frame offsets 2 to `5 + L`, the direction byte to the byte before the trailer (log 14). -/
def frameCrc (f : List Byte) : Word16 := checksum16 (slice f 2 (5 + (byteAt f 4).toNat))

/-- `CRC.INIT` (R64), in every mode. -/
def execCrcInit (s : State) : Result := .next (s.setCrc crcInitValue).quiet

/-- `CRC.UPDATE d` (R65), in every mode. -/
def execCrcUpdate (d : Byte) (s : State) : Result := .next (s.setCrc (crcUpdate s.crc d)).quiet

end Sys2Proof.Machine
end

