-- ==== Sys2Proof/Machine/Control.lean ====
section
/-! DEFINITION. The control operation `RESET` (43_control.md R105). -/

namespace Sys2Proof.Machine

/-- `RESET` (R105, R21): the three elements take their reset values whatever they held, and no event is emitted. The
configuration, the host's inputs and the events already emitted are not the block's to reset (R21, R126). -/
def execReset (s : State) : Result := .next (((s.setMode .hunt).setBuf []).setCrc crcInitValue).quiet

end Sys2Proof.Machine
end

