-- ==== Sys2Proof/WellFormed.lean ====
section
/-! DEFINITION. Which terms of `Instr` an encoding exists for: a one-byte length field (R45, R46) and the class a
direction byte belongs to (R47). -/

namespace Sys2Proof

/-- R46: a length byte holds at most 255. -/
def payloadFits (payload : List Byte) : Bool := decide (payload.length ≤ 255)

/-- R47: the directions of the class `FRAME.OTHER` are `0x02` to `0xFF`. -/
def otherDirection (direction : Byte) : Bool := direction != 0x00#8 && direction != 0x01#8

def Instr.wf : Instr → Bool
  | .reset => true
  | .synByte _ => true
  | .synEoi => true
  | .crcUpdate _ => true
  | .crcInit => true
  | .frameReply _ _ payload => payloadFits payload
  | .frameRequest _ _ payload => payloadFits payload
  | .frameOther direction _ _ payload => otherDirection direction && payloadFits payload

end Sys2Proof
end

