-- ==== Sys2Proof/Decode.lean ====
section
/-! DEFINITION. The decoder of the host's two input forms (30_encoding.md R40 to R49), total and refusing by name, and
after it the encoder, the opcode table's match and mask rows, and the table-word entry points. -/

namespace Sys2Proof

open Sys2Proof.Machine

/-- Why an input has no instruction: a burst whose bytes are not a Frame (R45; log 9). No step word is refused (R44). -/
inductive DecodeError where
  | notAFrame
  deriving DecidableEq, Repr

/-- `rst = sw[10]` (R40). -/
def fieldRst (sw : StepWord) : BitVec 1 := sw.extractLsb' 10 1

/-- `op = cmd[9:8]` (R40). -/
def fieldOp (sw : StepWord) : BitVec 2 := sw.extractLsb' 8 2

/-- `data = cmd[7:0]` (R40). -/
def fieldData (sw : StepWord) : Byte := sw.extractLsb' 0 8

/-- R41, R43: total on the 2048 step words, `rst` first. -/
def decodeWord (sw : StepWord) : Instr :=
  if fieldRst sw = 1#1 then .reset
  else if fieldOp sw = 0b00#2 then .synByte (fieldData sw)
  else if fieldOp sw = 0b01#2 then .synEoi
  else if fieldOp sw = 0b10#2 then .crcUpdate (fieldData sw)
  else .crcInit

/-- The class of a frame by its direction byte, in the order of R47. -/
def frameOfDirection (direction flags : Byte) (typeCode : TypeCode) (payload : List Byte) : Instr :=
  if direction = 0x01#8 then .frameReply flags typeCode payload
  else if direction = 0x00#8 then .frameRequest flags typeCode payload
  else .frameOther direction flags typeCode payload

/-- R45, R47: the fields of a wire Frame; bytes that are not a Frame are refused. -/
def decodeFrame (f : List Byte) : Except DecodeError Instr :=
  if isFrame f then
    .ok (frameOfDirection (byteAt f 2) (byteAt f 3) ⟨byteAt f 5, byteAt f 6, byteAt f 7⟩ (f.drop hdrLen))
  else .error .notAFrame

def decode : Input → Except DecodeError Instr
  | .word sw => .ok (decodeWord sw)
  | .burst bytes => decodeFrame bytes

/-- The step word `{rst, op, data}` (R40). -/
def stepWord (rst : BitVec 1) (op : BitVec 2) (data : Byte) : StepWord := rst ++ op ++ data

/-- The bytes of a Frame in arrival order (R45). -/
def frameBytes (direction flags : Byte) (typeCode : TypeCode) (payload : List Byte) : List Byte :=
  [marker0, marker1, direction, flags, BitVec.ofNat 8 payload.length, typeCode.b0, typeCode.b1, typeCode.b2] ++ payload

/-- The encoder; ignored bits are zero, the canonical spelling of R42. -/
def encode : Instr → Input
  | .reset => .word (stepWord 1#1 0b00#2 0x00#8)
  | .synByte d => .word (stepWord 0#1 0b00#2 d)
  | .synEoi => .word (stepWord 0#1 0b01#2 0x00#8)
  | .crcUpdate d => .word (stepWord 0#1 0b10#2 d)
  | .crcInit => .word (stepWord 0#1 0b11#2 0x00#8)
  | .frameReply flags typeCode payload => .burst (frameBytes 0x01#8 flags typeCode payload)
  | .frameRequest flags typeCode payload => .burst (frameBytes 0x00#8 flags typeCode payload)
  | .frameOther direction flags typeCode payload => .burst (frameBytes direction flags typeCode payload)

/-- One row of a match and mask table over `w`-bit values (R41, R47). -/
structure TableRow (w : Nat) where
  row : Mnemonic
  pattern : BitVec w
  mask : BitVec w
  deriving DecidableEq, Repr

/-- R41: a value matches a row when `(value AND mask) = match`. -/
def TableRow.matches {w : Nat} (r : TableRow w) (value : BitVec w) : Bool := value &&& r.mask == r.pattern

/-- The five step-word rows of R41 and spec/opcode_table.json. -/
def wordRows : List (TableRow 11) :=
  [⟨.reset, 0x400#11, 0x400#11⟩, ⟨.synByte, 0x000#11, 0x700#11⟩, ⟨.synEoi, 0x100#11, 0x700#11⟩,
   ⟨.crcUpdate, 0x200#11, 0x700#11⟩, ⟨.crcInit, 0x300#11, 0x700#11⟩]

/-- The three frame-class rows of R47 and spec/opcode_table.json, in the order they are tested. -/
def frameRows : List (TableRow 64) :=
  [⟨.frameReply, 0x0100010000000000#64, 0xFFFFFF0000000000#64⟩,
   ⟨.frameRequest, 0x0100000000000000#64, 0xFFFFFF0000000000#64⟩,
   ⟨.frameOther, 0x0100000000000000#64, 0xFFFF000000000000#64⟩]

/-- The header value of a frame: its first eight bytes, the first to arrive most significant (R49). -/
def headerValue (f : List Byte) : Header :=
  byteAt f 0 ++ byteAt f 1 ++ byteAt f 2 ++ byteAt f 3 ++ byteAt f 4 ++ byteAt f 5 ++ byteAt f 6 ++ byteAt f 7

/-- The eight header bytes that a header value stands for (R49). -/
def headerBytes (h : Header) : List Byte :=
  [h.extractLsb' 56 8, h.extractLsb' 48 8, h.extractLsb' 40 8, h.extractLsb' 32 8,
   h.extractLsb' 24 8, h.extractLsb' 16 8, h.extractLsb' 8 8, h.extractLsb' 0 8]

/-- The input that a table word stands for: up to 16 bits a step word in its low 11 bits (log 7), beyond that a header
value in the numbering of R49 (log 6), followed by as many zero payload bytes as its length byte says. -/
def tableInput (nbits w : Nat) : Input :=
  if nbits ≤ 16 then .word (BitVec.ofNat 11 w)
  else
    let header := headerBytes (BitVec.ofNat 64 w)
    .burst (header ++ List.replicate (byteAt header 4).toNat 0x00#8)

/-- The instruction the decoder reads from a table word. -/
def decodeTableWord (nbits w : Nat) : Option Instr :=
  match decode (tableInput nbits w) with
  | .ok i => some i
  | .error .notAFrame => none

end Sys2Proof
end

