-- ==== Sys2Proof/Machine/Parser.lean ====
section
/-! DEFINITION. The frame parser (42_parser.md): `parse`, the checksum annotation, `encode` and the rendering of a
datapoint id, as pure functions. -/

namespace Sys2Proof.Machine

/-- The results of `parse` (R90): on a Frame one of the first two, on anything else none, which is refused. -/
inductive Parsed where
  | message (m : Message)
  | tooShort
  | notAFrame
  deriving DecidableEq, Repr

/-- The Message of a Frame with `L >= 5` (R92, R93, R48). -/
def messageOf (f : List Byte) : Message :=
  let l := (byteAt f 4).toNat
  { isReply := byteAt f 2 == 0x01#8
    flags := byteAt f 3
    payloadLength := byteAt f 4
    typeCode := ⟨byteAt f 5, byteAt f 6, byteAt f 7⟩
    datapointId := ⟨byteAt f 8, byteAt f 9⟩
    subindex := byteAt f 10
    data := slice f 11 (5 + l)
    trailer := ⟨byteAt f (6 + l), byteAt f (7 + l)⟩ }

/-- R90 to R92: the Frame property is a precondition, then the declared length is validated, then the fields are sliced. -/
def parse (f : List Byte) : Parsed :=
  if !isFrame f then .notAFrame
  else if (byteAt f 4).toNat < minPayload then .tooShort
  else .message (messageOf f)

/-- R97: the declared checksum as a number, under `TRAILER_ORDER`. -/
def trailerValue (cfg : Config) (m : Message) : Word16 :=
  match cfg.trailerOrder with
  | .loFirst => w16 m.trailer.first m.trailer.second
  | .hiFirst => w16 m.trailer.second m.trailer.first

/-- R98: `crc_ok`. -/
def crcOk (cfg : Config) (m : Message) (crcCalc : Word16) : Bool := crcCalc == trailerValue cfg m

/-- R99: the events of the step that completes `f`; none when `f` is not a Frame. -/
def parseAndCheck (cfg : Config) (f : List Byte) : Option Slots :=
  match parse f with
  | .notAFrame => none
  | .tooShort => some ⟨none, some (.tooShort f)⟩
  | .message m =>
    if crcOk cfg m (frameCrc f) then some ⟨some (.msg m (frameCrc f) true), none⟩
    else some ⟨some (.msg m (frameCrc f) false), some (.crcMismatch (frameCrc f) m.trailer)⟩

/-- The domain of `encode` (R100): `len(data) = payload_length - 5` and `5 <= payload_length`. -/
def Message.wf (m : Message) : Bool := decide (m.payloadLength.toNat = minPayload + m.data.length)

/-- R100: the Frame of a Message; a request's direction is spelt `0x00`. Not an operation of the block. -/
def encodeMessage (m : Message) : List Byte :=
  [marker0, marker1, if m.isReply then 0x01#8 else 0x00#8, m.flags, m.payloadLength]
    ++ m.typeCode.bytes ++ m.datapointId.bytes ++ [m.subindex] ++ m.data ++ m.trailer.bytes

/-- R94: `id_string`, the upper-case rendering of the datapoint id, as its four characters. -/
def idString (m : Message) : List Char := hexstr m.datapointId.bytes

end Sys2Proof.Machine
end

