-- ==== Sys2Proof/Machine/Synchronizer.lean ====
section
/-! DEFINITION. The frame synchronizer (41_synchronizer.md): the meanings of `SYN.BYTE` and `SYN.EOI`, case by case on
`mode` (R73), and the delivery of a run of bytes. -/

namespace Sys2Proof.Machine

/-- R77: the completed sequence goes to the parser, `buf` is emptied and the scan restarts. A diagnostic of the parser is
raised like any other condition, and its change of `mode` and `buf` is the same (R115, R116, R125). -/
def completeFrame (f : List Byte) (s : State) : Result :=
  match parseAndCheck s.cfg f with
  | none => .refused .parseNotAFrame
  | some ⟨prim, some x⟩ => raise x prim s
  | some ⟨prim, none⟩ => .next (((s.setMode .hunt).setBuf []).emit prim none)

/-- R74, R75, R78: `SYN.BYTE d` in mode `HUNT`. -/
def huntByte (d : Byte) (s : State) : Result :=
  let b := s.buf ++ [d]
  if endsInMarker b then
    match b.take (b.length - 2) with
    | [] => .next ((s.setMode .frame).setBuf marker).quiet
    | x :: xs => raise (.spurious (x :: xs)) none s
  else if capExceeded s.cfg.bufCap b.length then raise (.overflow s.buf d) none s
  else .next (s.bufAppend d).quiet

/-- R76: `SYN.BYTE d` in mode `FRAME`; the byte is stored whatever its value. -/
def frameByte (d : Byte) (s : State) : Result :=
  let b := s.buf ++ [d]
  if frameComplete b then completeFrame b s else .next (s.bufAppend d).quiet

/-- `SYN.BYTE d` (R73, R74, R76, R79). -/
def execSynByte (d : Byte) (s : State) : Result :=
  match s.mode with
  | .hunt => huntByte d s
  | .frame => frameByte d s
  | .done => .next s.quiet
  | .failed => .next s.quiet

/-- `SYN.EOI` (R73, R80, R81, R82). -/
def execSynEoi (s : State) : Result :=
  match s.mode with
  | .hunt => .next ((s.setMode .done).emit (some (.endOfPass true)) none)
  | .frame => raise (.incomplete s.buf) none s
  | .done => .next s.quiet
  | .failed => .next s.quiet

/-- `STREAM b0 b1 ... bn` (R57): one `SYN.BYTE` per byte, in arrival order. -/
def stream : List Byte → State → Result
  | [], s => .next s
  | b :: bs, s => Result.andThen (execSynByte b s) (stream bs)

end Sys2Proof.Machine
end

