-- ==== Sys2Proof/Machine/Frames.lean ====
section
/-! DEFINITION. The meanings of the three frame classes (30_encoding.md R47): the host presents the whole Frame with the
pseudo-instruction `FRAME` of R57, whose expansion is one `SYN.BYTE` per byte (log 5). What the frame yields, its
`is_reply` included, is the synchronizer's and the parser's doing, in whatever mode the block is. -/

namespace Sys2Proof.Machine

/-- `FRAME.REPLY`: direction `0x01` (R47). -/
def execFrameReply (flags : Byte) (typeCode : TypeCode) (payload : List Byte) (s : State) : Result :=
  stream (frameBytes 0x01#8 flags typeCode payload) s

/-- `FRAME.REQUEST`: direction `0x00` (R47). -/
def execFrameRequest (flags : Byte) (typeCode : TypeCode) (payload : List Byte) (s : State) : Result :=
  stream (frameBytes 0x00#8 flags typeCode payload) s

/-- `FRAME.OTHER`: any other direction, treated as a request by the parser (R47, R93). -/
def execFrameOther (direction flags : Byte) (typeCode : TypeCode) (payload : List Byte) (s : State) : Result :=
  stream (frameBytes direction flags typeCode payload) s

end Sys2Proof.Machine
end

