-- ==== Sys2Proof/Machine/Dispatch.lean ====
section
/-! DEFINITION. The one dispatch from an instruction to its meaning (43_control.md R106). -/

namespace Sys2Proof.Machine

def exec (i : Instr) (s : State) : Host.Outcome State Fault Refusal :=
  match i with
  | .reset => Sys2Proof.Machine.execReset s
  | .synByte d => Sys2Proof.Machine.execSynByte d s
  | .synEoi => Sys2Proof.Machine.execSynEoi s
  | .crcUpdate d => Sys2Proof.Machine.execCrcUpdate d s
  | .crcInit => Sys2Proof.Machine.execCrcInit s
  | .frameReply flags typeCode payload => Sys2Proof.Machine.execFrameReply flags typeCode payload s
  | .frameRequest flags typeCode payload => Sys2Proof.Machine.execFrameRequest flags typeCode payload s
  | .frameOther direction flags typeCode payload => Sys2Proof.Machine.execFrameOther direction flags typeCode payload s

end Sys2Proof.Machine
end

