-- ==== Sys2Proof/Machine/Step.lean ====
section
/-! DEFINITION. One step of the machine: the host's next input is taken, decoded and executed (43_control.md R106). -/

namespace Sys2Proof.Machine

/-- Without an input no command has arrived, and the state does not change (R28; log 4). Otherwise the input is taken
(R27) and its instruction executed; a burst whose bytes are not a Frame is refused (log 9). -/
def step (s : State) : Host.Outcome State Fault Refusal :=
  match s.input with
  | [] => .next s
  | x :: rest =>
    match decode x with
    | .ok i => exec i (s.takeInput rest)
    | .error .notAFrame => .refused .burstNotAFrame

/-- `s` with the instruction of a table word as the host's next input (log 1). -/
def State.withFetchWord (s : State) (nbits w : Nat) : State := { s with input := tableInput nbits w :: s.input }

end Sys2Proof.Machine
end

