-- ==== Sys2Proof/Machine/Function.lean ====
section
/-! DEFINITION. The block as the spec's own function form, written apart from the meanings: `syn_step` (41_synchronizer.md
R86) and the top-level `step` (43_control.md R106). The meanings are stated equal to it. -/

namespace Sys2Proof.Machine

/-- `State = (mode, buf, crc)` of R106. -/
structure Block where
  mode : Mode
  buf : List Byte
  crc : Word16
  deriving DecidableEq, Repr

/-- `SynCmd = Byte(d) | Eoi` (R86). -/
inductive SynCmd where
  | byte (d : Byte)
  | eoi
  deriving DecidableEq, Repr

/-- The result of `syn_step` (R86): the new position and the three optional outputs. -/
structure SynResult where
  mode : Mode
  buf : List Byte
  frame : Option (List Byte)
  diag : Option Diag
  endOf : Option Prim
  deriving DecidableEq, Repr

/-- `syn_step` (R86), by the transition table of R83; of the configuration only `BUF_CAP` is read. -/
def synStep (cap : BufCap) (mode : Mode) (buf : List Byte) (cmd : SynCmd) : SynResult :=
  match mode, cmd with
  | .hunt, .byte d =>
    if buf.getLast? = some marker0 ∧ d = marker1 then
      let before := buf.dropLast
      ⟨.frame, marker, none, if before.isEmpty then none else some (.spurious before), none⟩
    else if capExceeded cap (buf.length + 1) then
      ⟨.failed, buf, none, some (.overflow buf d), some (.endOfPass false)⟩
    else ⟨.hunt, buf ++ [d], none, none, none⟩
  | .hunt, .eoi => ⟨.done, buf, none, none, some (.endOfPass true)⟩
  | .frame, .byte d =>
    if frameComplete (buf ++ [d]) then ⟨.hunt, [], some (buf ++ [d]), none, none⟩
    else ⟨.frame, buf ++ [d], none, none, none⟩
  | .frame, .eoi => ⟨.failed, buf, none, some (.incomplete buf), some (.endOfPass false)⟩
  | .done, _ => ⟨.done, buf, none, none, none⟩
  | .failed, _ => ⟨.failed, buf, none, none, none⟩

/-- The `SYN.*` rows of R106: a frame that comes out goes to `parse_and_check`. No result when the parser is given
something that is not a Frame (R90). -/
def synBlockStep (cfg : Config) (b : Block) (cmd : SynCmd) : Option (Block × Slots) :=
  let r := synStep cfg.bufCap b.mode b.buf cmd
  match r.frame with
  | some f => (parseAndCheck cfg f).map fun o => (⟨r.mode, r.buf, b.crc⟩, o)
  | none => some (⟨r.mode, r.buf, b.crc⟩, ⟨r.endOf, r.diag⟩)

/-- `step` (R106) on a step word. -/
def blockStep (cfg : Config) (b : Block) (sw : StepWord) : Option (Block × Slots) :=
  if fieldRst sw = 1#1 then some (⟨.hunt, [], crcInitValue⟩, ⟨none, none⟩)
  else if fieldOp sw = 0b00#2 then synBlockStep cfg b (.byte (fieldData sw))
  else if fieldOp sw = 0b01#2 then synBlockStep cfg b .eoi
  else if fieldOp sw = 0b10#2 then some (⟨b.mode, b.buf, crcUpdate b.crc (fieldData sw)⟩, ⟨none, none⟩)
  else some (⟨b.mode, b.buf, crcInitValue⟩, ⟨none, none⟩)

/-- The three elements of a machine state. -/
def State.block (s : State) : Block := ⟨s.mode, s.buf, s.crc⟩

/-- A machine state with the result of one step of the block put in. -/
def State.withBlock (s : State) (b : Block) (o : Slots) : State :=
  { s with mode := b.mode, buf := b.buf, crc := b.crc, trace := s.trace ++ [o] }

end Sys2Proof.Machine
end

