-- ==== Sys2Proof/Machine/Pseudo.lean ====
section
/-! DEFINITION. The pseudo-instructions of 30_encoding.md R57 as lists of step words, for programs that a host issues. -/

namespace Sys2Proof.Machine

/-- `SYN.BYTE d` as a step word (R41). -/
def synByteWord (d : Byte) : StepWord := stepWord 0#1 0b00#2 d

/-- `SYN.EOI`, canonical (R42). -/
def synEoiWord : StepWord := stepWord 0#1 0b01#2 0x00#8

/-- `CRC.UPDATE d` as a step word (R41). -/
def crcUpdateWord (d : Byte) : StepWord := stepWord 0#1 0b10#2 d

/-- `CRC.INIT`, canonical (R42). -/
def crcInitWord : StepWord := stepWord 0#1 0b11#2 0x00#8

/-- `STREAM b0 b1 ... bn` (R57). -/
def streamProgram (bytes : List Byte) : List StepWord := bytes.map synByteWord

/-- `CRC16 b0 b1 ... bn` (R57). -/
def crc16Program (bytes : List Byte) : List StepWord := crcInitWord :: bytes.map crcUpdateWord

/-- `END.INPUT` (R57). -/
def endInputProgram : List StepWord := [synEoiWord]

/-- The payload that `FRAME(dir, flags, tc, id, sub, data, tr)` puts on the wire (R57). -/
def framePayload (id : BytePair) (subindex : Byte) (data : List Byte) (trailer : BytePair) : List Byte :=
  id.bytes ++ [subindex] ++ data ++ trailer.bytes

/-- `FRAME(dir, flags, tc, id, sub, data, tr)` (R57); requires `len(data) <= 250`. -/
def frameProgram (direction flags : Byte) (typeCode : TypeCode) (id : BytePair) (subindex : Byte) (data : List Byte)
    (trailer : BytePair) : List StepWord :=
  streamProgram (frameBytes direction flags typeCode (framePayload id subindex data trailer))

/-- The trailer that makes `crc_ok = 1` under a trailer order (R57 `FRAME.CK`). -/
def goodTrailer (cfg : Config) (c : Word16) : BytePair :=
  match cfg.trailerOrder with
  | .loFirst => ⟨lo c, hi c⟩
  | .hiFirst => ⟨hi c, lo c⟩

/-- The bytes that `FRAME.CK` takes the checksum of (R57). -/
def coveredBytes (direction flags : Byte) (typeCode : TypeCode) (id : BytePair) (subindex : Byte) (data : List Byte) :
    List Byte :=
  [direction, flags, BitVec.ofNat 8 (minPayload + data.length)] ++ typeCode.bytes ++ id.bytes ++ [subindex] ++ data

/-- The payload of `FRAME.CK` (R57): that of `FRAME` with the trailer that matches. -/
def checkedPayload (cfg : Config) (direction flags : Byte) (typeCode : TypeCode) (id : BytePair) (subindex : Byte)
    (data : List Byte) : List Byte :=
  framePayload id subindex data
    (goodTrailer cfg (checksum16 (coveredBytes direction flags typeCode id subindex data)))

/-- `FRAME.CK(dir, flags, tc, id, sub, data)` (R57). -/
def frameCkProgram (cfg : Config) (direction flags : Byte) (typeCode : TypeCode) (id : BytePair) (subindex : Byte)
    (data : List Byte) : List StepWord :=
  streamProgram (frameBytes direction flags typeCode (checkedPayload cfg direction flags typeCode id subindex data))

/-- A program as inputs of the machine. -/
def asInputs (program : List StepWord) : List Input := program.map Input.word

/-- A state with a program placed before the inputs it already holds (log 1). -/
def State.load (s : State) (program : List StepWord) : State := { s with input := asInputs program ++ s.input }

end Sys2Proof.Machine
end

