-- ==== Sys2Proof/Safety.lean ====
section
/-! DEFINITION. What counts as a safe run: the invariants of 10_state.md R17, the pairs of events a step may emit
(60_exceptions.md R123 with the fields of 30_encoding.md R54 and R55), and the words in which claims speak of runs, of the
bytes a run accounts for and of what a delivered frame leaves. -/

namespace Sys2Proof.Machine

/-- R17 item 3: no index holds `01` with `00` after it. -/
def noMarker : List Byte → Bool
  | a :: b :: rest => !(a == marker0 && b == marker1) && noMarker (b :: rest)
  | _ => true

/-- R17 items 1 and 2: a frame in progress, from its marker on. -/
def framePart (buf : List Byte) : Bool :=
  decide (2 ≤ buf.length) && byteAt buf 0 == marker0 && byteAt buf 1 == marker1 &&
    match lengthByte buf with
    | some l => decide (buf.length < hdrLen + l)
    | none => true

/-- R17 item 5: `buf` is within a finite capacity. -/
def withinCap (cap : BufCap) (buf : List Byte) : Bool := !capExceeded cap buf.length

/-- R17 item 4, second case: unsynchronized bytes that fill a finite buffer. -/
def fullHunt (cap : BufCap) (buf : List Byte) : Bool :=
  match cap with
  | .unbounded => false
  | .bounded n => noMarker buf && decide (buf.length = n)

/-- The content of `buf` that R17 allows in each mode. -/
def modeInv (cap : BufCap) (mode : Mode) (buf : List Byte) : Bool :=
  match mode with
  | .hunt => noMarker buf
  | .frame => framePart buf
  | .done => noMarker buf
  | .failed => framePart buf || fullHunt cap buf

/-- The invariants of R17 under a legal configuration (R7). -/
def State.inv (s : State) : Bool := s.cfg.wf && modeInv s.cfg.bufCap s.mode s.buf && withinCap s.cfg.bufCap s.buf

/-- The pairs of R123, with what R55, R91, R92 and R99 say of their fields. -/
def Slots.legal (cfg : Config) (o : Slots) : Bool :=
  match o with
  | ⟨none, none⟩ => true
  | ⟨none, some (.spurious bytes)⟩ => !bytes.isEmpty
  | ⟨none, some (.tooShort f)⟩ => isFrame f && decide ((byteAt f 4).toNat < minPayload)
  | ⟨some (.msg m c true), none⟩ => m.wf && c == trailerValue cfg m
  | ⟨some (.msg m c false), some (.crcMismatch c' t)⟩ => m.wf && c != trailerValue cfg m && c == c' && m.trailer == t
  | ⟨some (.endOfPass true), none⟩ => true
  | ⟨some (.endOfPass false), some (.incomplete part)⟩ => framePart part
  | ⟨some (.endOfPass false), some (.overflow held _)⟩ => fullHunt cfg.bufCap held
  | _ => false

/-- Every step so far emitted a pair of R123. -/
def State.traceLegal (s : State) : Bool := s.trace.all (Slots.legal s.cfg)

/-- The operand of a `SYN.BYTE`. -/
def synOperand : Instr → Option Byte
  | .reset => none
  | .synByte d => some d
  | .synEoi => none
  | .crcUpdate _ => none
  | .crcInit => none
  | .frameReply _ _ _ => none
  | .frameRequest _ _ _ => none
  | .frameOther _ _ _ _ => none

/-- The operand of a `CRC.UPDATE`. -/
def crcOperand : Instr → Option Byte
  | .reset => none
  | .synByte _ => none
  | .synEoi => none
  | .crcUpdate d => some d
  | .crcInit => none
  | .frameReply _ _ _ => none
  | .frameRequest _ _ _ => none
  | .frameOther _ _ _ _ => none

/-- The bytes that a program's `CRC.UPDATE` commands carry, in order (R66). -/
def crcOperands (program : List StepWord) : List Byte := program.filterMap fun sw => crcOperand (decodeWord sw)

/-- The bytes that a program's `SYN.BYTE` commands carry, in order (R25). -/
def synOperands (program : List StepWord) : List Byte := program.filterMap fun sw => synOperand (decodeWord sw)

/-- A run: the machine takes the step words of a program one at a time (R106). -/
def runProgram (s : State) (program : List StepWord) : Result :=
  Host.Core.run Sys2Proof.core program.length (s.load program)

/-- The start of a pass: what `RESET` leaves, under any legal configuration, with no event emitted yet (R135). -/
def State.passStart (s : State) : Bool := s.mode == .hunt && s.buf == [] && s.trace == [] && s.cfg.wf

/-- The bytes `S` of R39: the operands of the `SYN.BYTE` commands executed while `mode` was `HUNT` or `FRAME`. -/
def acceptedBytes : State → List StepWord → List Byte
  | _, [] => []
  | s, sw :: program =>
    match exec (decodeWord sw) s with
    | .next t => (if s.terminal then [] else (synOperand (decodeWord sw)).toList) ++ acceptedBytes t program
    | .fault _ => []
    | .refused _ => []

/-- The bytes of the stream that the events of one step account for (R39): those of a `SPURIOUS` or `TOO_SHORT` event
exactly, those of a `MSG` as `encode` rebuilds them, but for the direction byte of a request, which the Message does not
keep (R100, R101). -/
def Slots.accountsFor (o : Slots) (chunk : List Byte) : Prop :=
  match o with
  | ⟨some (.msg m _ _), _⟩ => chunk = encodeMessage m ∨ chunk.set 2 0x00#8 = encodeMessage m
  | ⟨_, some (.spurious bytes)⟩ => chunk = bytes
  | ⟨_, some (.tooShort f)⟩ => chunk = f
  | _ => chunk = []

/-- The `dropped` byte of an `OVERFLOW` event (R39, R55). -/
def Slots.dropped (o : Slots) : List Byte :=
  match o.diag with
  | some (.overflow _ d) => [d]
  | _ => []

/-- Whether a step handed a frame to the parser: it emitted a `MSG` or a `TOO_SHORT` (R77). -/
def Slots.isFrameReport (o : Slots) : Bool :=
  match o with
  | ⟨some (.msg _ _ _), _⟩ => true
  | ⟨_, some (.tooShort _)⟩ => true
  | _ => false

/-- The number of frames a run has extracted. -/
def State.framesOut (s : State) : Nat := s.trace.countP Slots.isFrameReport

/-- Whether a primary event is `END` (R54). -/
def Prim.isEnd : Prim → Bool
  | .msg _ _ _ => false
  | .endOfPass _ => true

/-- The pair of slots that reports a Message with its annotation (R99): beside `crc_ok = 0` stands the mismatch. -/
def Slots.checked (m : Message) (crcCalc : Word16) (ok : Bool) : Slots :=
  ⟨some (.msg m crcCalc ok), if ok then none else some (.crcMismatch crcCalc m.trailer)⟩

/-- What R84 says of the primary events of one pass, those since its start: none is `END` before a terminal mode; in one,
the last is, and is the only one. -/
def endRule (mode : Mode) (events : List Prim) : Prop :=
  if mode.isTerminal then
    ∃ earlier, events = earlier ++ [.endOfPass (mode == .done)] ∧ earlier.all (fun e => !e.isEnd) = true
  else events.all (fun e => !e.isEnd) = true

/-- The events of the step that completes the frame whose fields are given one by one (R92, R98, R99). -/
def reportOf (cfg : Config) (isReply : Bool) (direction flags : Byte) (typeCode : TypeCode) (id : BytePair)
    (subindex : Byte) (data : List Byte) (trailer : BytePair) : Slots :=
  let m : Message :=
    { isReply := isReply, flags := flags, payloadLength := BitVec.ofNat 8 (5 + data.length), typeCode := typeCode
      datapointId := id, subindex := subindex, data := data, trailer := trailer }
  let c := checksum16 (coveredBytes direction flags typeCode id subindex data)
  if c = trailerValue cfg m then ⟨some (.msg m c true), none⟩ else ⟨some (.msg m c false), some (.crcMismatch c trailer)⟩

/-- What the delivery of a whole frame leaves when it starts in mode `HUNT`: the first marker byte is silent, the second
reports what `buf` held, the bytes up to the last are silent, and the last one emits `final` (R74 to R77). -/
def State.afterFrame (s : State) (payloadLength : Nat) (final : Slots) : State :=
  { s with
    mode := .hunt
    buf := []
    trace := s.trace ++ [⟨none, none⟩, ⟨none, if s.buf = [] then none else some (.spurious s.buf)⟩]
      ++ List.replicate (5 + payloadLength) ⟨none, none⟩ ++ [final] }

end Sys2Proof.Machine
end

