-- ==== Sys2Proof/Certificates/Slice0/Obligations.lean ====
section
/-! DEFINITION. The statements for the provers. Each docstring names the rule it formalises. -/

open Sys2Proof Sys2Proof.Machine

/-! ### Reset, status, waiting -/

/-- R21: the reset state, its status view, and nothing pending; `RESET` leaves the configuration as it is. -/
def Obligations.ResetStateIsTheSpecs : Prop :=
  State.reset.mode = .hunt ∧ State.reset.buf = [] ∧ State.reset.crc = 0xFFFF#16 ∧
  State.reset.stMode = 0#2 ∧ State.reset.stBufLen = 0 ∧ State.reset.stCrc = 0xFFFF#16 ∧
  State.reset.primary = [] ∧ State.reset.diagnostic = [] ∧
  ∀ s : State, ∃ t, exec .reset s = .next t ∧ t.mode = .hunt ∧ t.buf = [] ∧ t.crc = 0xFFFF#16 ∧
    t.stMode = 0#2 ∧ t.stBufLen = 0 ∧ t.stCrc = 0xFFFF#16 ∧
    t.primary = s.primary ∧ t.diagnostic = s.diagnostic ∧ t.cfg = s.cfg

/-- R105, R43: `RESET` from any state, in every spelling, alone and twice; and nothing else leaves a terminal mode, or
changes `buf` in one. -/
def Obligations.ResetForgetsThePass : Prop :=
  (∀ (op : BitVec 2) (data : Byte), decodeWord (1#1 ++ op ++ data) = .reset) ∧
  (∀ s : State, ∃ t, exec .reset s = .next t ∧
    t = { s with mode := .hunt, buf := [], crc := 0xFFFF#16, trace := s.trace ++ [⟨none, none⟩] } ∧
    exec .reset t = .next { t with trace := t.trace ++ [⟨none, none⟩] }) ∧
  ∀ (s t : State) (i : Instr), s.terminal = true → i ≠ .reset → exec i s = .next t → t.mode = s.mode ∧ t.buf = s.buf

/-- R28: while no command arrives nothing changes. -/
def Obligations.WaitingChangesNothing : Prop :=
  ∀ s : State, s.input = [] → step s = .next s

/-- R16, R10: the status view and the numeric values of `mode`. -/
def Obligations.StatusViewMirrorsTheState : Prop :=
  (∀ s : State, s.stMode = s.mode.code ∧ s.stBufLen = s.buf.length ∧ s.stCrc = s.crc) ∧
  Mode.code .hunt = 0#2 ∧ Mode.code .frame = 1#2 ∧ Mode.code .done = 2#2 ∧ Mode.code .failed = 3#2 ∧
  (∀ c : Config, c.bufCap = .unbounded → stBufLenWidth c = none) ∧
  ∀ (c : Config) (n : Nat), c.bufCap = .bounded n → 263 ≤ n →
    ∃ w, stBufLenWidth c = some w ∧ n < 2 ^ w ∧ (n ≤ 511 → w = 9)

/-! ### Encodings -/

/-- R41, R44: every step word matches exactly one row, one of the five, and decodes to that row's operation with its
operand. -/
def Obligations.EveryStepWordMatchesOneRow : Prop :=
  ∀ sw : StepWord, ∃ r, wordRows.filter (fun r => r.matches sw) = [r] ∧ decode (.word sw) = .ok (decodeWord sw) ∧
    ((r.row = .reset ∧ decodeWord sw = .reset) ∨
     (r.row = .synByte ∧ decodeWord sw = .synByte (sw.extractLsb' 0 8)) ∨
     (r.row = .synEoi ∧ decodeWord sw = .synEoi) ∨
     (r.row = .crcUpdate ∧ decodeWord sw = .crcUpdate (sw.extractLsb' 0 8)) ∨
     (r.row = .crcInit ∧ decodeWord sw = .crcInit))

/-- R42: the ignored fields, and the canonical spellings. -/
def Obligations.IgnoredBitsAreIgnored : Prop :=
  (∀ data : Byte, decodeWord (0#1 ++ 0b01#2 ++ data) = .synEoi) ∧
  (∀ data : Byte, decodeWord (0#1 ++ 0b11#2 ++ data) = .crcInit) ∧
  (∀ (op : BitVec 2) (data : Byte), decodeWord (1#1 ++ op ++ data) = .reset) ∧
  encode .synEoi = .word 0x100#11 ∧ encode .crcInit = .word 0x300#11 ∧ encode .reset = .word 0x400#11

/-- Words written out from the encodings of R40 and R45, one for each row of the table. -/
def Obligations.SampleWordsDecode : Prop :=
  decode (.word 0b10000000000#11) = .ok .reset ∧
  decode (.word 0b00000110000#11) = .ok (.synByte 0x30#8) ∧
  decode (.word 0b00100000000#11) = .ok .synEoi ∧
  decode (.word 0b01000110001#11) = .ok (.crcUpdate 0x31#8) ∧
  decode (.word 0b01100000000#11) = .ok .crcInit ∧
  decode (.burst [0x01, 0x00, 0x01, 0x80, 0x02, 0xAA, 0xBB, 0xCC, 0x30, 0x23]) =
    .ok (.frameReply 0x80 ⟨0xAA, 0xBB, 0xCC⟩ [0x30, 0x23]) ∧
  decode (.burst [0x01, 0x00, 0x00, 0x80, 0x00, 0xAA, 0xBB, 0xCC]) = .ok (.frameRequest 0x80 ⟨0xAA, 0xBB, 0xCC⟩ []) ∧
  decode (.burst [0x01, 0x00, 0x02, 0x80, 0x01, 0xAA, 0xBB, 0xCC, 0x5A]) =
    .ok (.frameOther 0x02 0x80 ⟨0xAA, 0xBB, 0xCC⟩ [0x5A])

/-- Decoding the encoding of a well-formed instruction gives it back, operands and all. -/
def Obligations.DecodeUndoesEncode : Prop :=
  ∀ i : Instr, i.wf = true → decode (encode i) = .ok i

/-- Every Frame decodes to a well-formed instruction that encodes to it; a burst that is no Frame is refused by name
(the refusal is the model's choice, log 9). -/
def Obligations.EncodeUndoesDecodeOnFrames : Prop :=
  ∀ f : List Byte,
    (isFrame f = true → ∃ i, decode (.burst f) = .ok i ∧ i.wf = true ∧ encode i = .burst f) ∧
    (isFrame f = false → decode (.burst f) = .error .notAFrame ∧
      ∀ (s : State) (rest : List Input), s.input = .burst f :: rest → step s = .refused .burstNotAFrame)

/-- R47: the class of a Frame is the first matching row over its header value, no direction is refused, and `is_reply`
is set for the first class only. -/
def Obligations.FrameClassIsTheFirstMatchingRow : Prop :=
  ∀ f : List Byte, isFrame f = true → ∃ i, decode (.burst f) = .ok i ∧
    (frameRows.find? fun r => r.matches (headerValue f)).map TableRow.row = some i.mnemonic ∧
    (i.mnemonic = .frameReply ↔ byteAt f 2 = 0x01#8) ∧ (i.mnemonic = .frameRequest ↔ byteAt f 2 = 0x00#8) ∧
    ((messageOf f).isReply = true ↔ i.mnemonic = .frameReply)

/-- A step takes the next input and is the meaning of its instruction (R27, R106). -/
def Obligations.StepRunsTheDecodedInstruction : Prop :=
  ∀ (s : State) (x : Input) (rest : List Input) (i : Instr), s.input = x :: rest → decode x = .ok i →
    step s = exec i { s with input := rest }

/-! ### The checksum engine -/

/-- R60: `crc_bit`, with the bit shifted out becoming bit 15. -/
def Obligations.CrcBitShiftsAndFeedsBack : Prop :=
  (∀ c : Word16, c.getLsbD 0 = true → crcBit c = (c >>> 1) ^^^ 0xA001#16) ∧
  (∀ c : Word16, c.getLsbD 0 = false → crcBit c = c >>> 1) ∧
  (∀ c : Word16, (crcBit c).getLsbD 15 = c.getLsbD 0) ∧
  crcBit 0x0001#16 = 0xA001#16 ∧ crcBit 0x0002#16 = 0x0001#16

/-- R63, R69 items 1 and 2: the left fold from `0xFFFF` in arrival order, which goes on over an appended sequence, and the
source's check value. -/
def Obligations.ChecksumOfTheReferenceString : Prop :=
  checksum16 [] = 0xFFFF#16 ∧
  (∀ (s : List Byte) (b : Byte), checksum16 (s ++ [b]) = crcUpdate (checksum16 s) b) ∧
  (∀ s t : List Byte, checksum16 (s ++ t) = t.foldl crcUpdate (checksum16 s)) ∧
  checksum16 [0x31, 0x32, 0x33, 0x34, 0x35, 0x36, 0x37, 0x38, 0x39] = 0x4B37#16 ∧
  ([0x31, 0x32, 0x33, 0x34, 0x35, 0x36, 0x37, 0x38, 0x39] : List Byte).scanl crcUpdate 0xFFFF#16 =
    [0xFFFF, 0x947E, 0xF595, 0x7A75, 0x30BA, 0xA471, 0x32E4, 0x9D73, 0x37DD, 0x4B37]

/-- R64: `CRC.INIT` in any mode, in every spelling. -/
def Obligations.CrcInitSetsTheRegister : Prop :=
  (∀ data : Byte, decodeWord (0#1 ++ 0b11#2 ++ data) = .crcInit) ∧
  ∀ s : State, exec .crcInit s = .next { s with crc := 0xFFFF#16, trace := s.trace ++ [⟨none, none⟩] }

/-- R61, R65: `crc_update` is the XOR into the low byte and then exactly eight applications of `crc_bit`, with every
intermediate value of the worked example; `CRC.UPDATE d` in any mode, with its two fixed points for the byte zero. -/
def Obligations.CrcUpdateFoldsOneByte : Prop :=
  (∀ (c : Word16) (d : Byte), crcUpdate c d = crcBit^[8] (c ^^^ zext16 d)) ∧
  0xFFFF#16 ^^^ zext16 0x31#8 = 0xFFCE#16 ∧
  (List.range 8).map (fun n => crcBit^[n + 1] 0xFFCE#16) =
    [0x7FE7, 0x9FF2, 0x4FF9, 0x87FD, 0xE3FF, 0xD1FE, 0x68FF, 0x947E] ∧
  (∀ d : Byte, decodeWord (0#1 ++ 0b10#2 ++ d) = .crcUpdate d) ∧
  (∀ (d : Byte) (s : State),
    exec (.crcUpdate d) s = .next { s with crc := crcUpdate s.crc d, trace := s.trace ++ [⟨none, none⟩] }) ∧
  (∀ c : Word16, crcUpdate c 0x00#8 = c ↔ c = 0x0000#16 ∨ c = 0xC001#16) ∧
  crcUpdate 0xFFFF#16 0x00#8 = 0x40BF#16 ∧ crcUpdate 0xFFFF#16 0x31#8 = 0x947E#16

/-- R69 item 3: linearity over XOR. -/
def Obligations.CrcUpdateIsLinear : Prop :=
  (∀ x y : Word16, crcBit (x ^^^ y) = crcBit x ^^^ crcBit y) ∧
  (∀ (c1 c2 : Word16) (b1 b2 : Byte), crcUpdate (c1 ^^^ c2) (b1 ^^^ b2) = crcUpdate c1 b1 ^^^ crcUpdate c2 b2) ∧
  crcUpdate 0x0000#16 0x00#8 = 0x0000#16 ∧
  ∀ (c : Word16) (b : Byte), crcUpdate c b = crcUpdate (c ^^^ zext16 b) 0x00#8

/-- R69 item 4: only the low byte selects the feedback, so the form by table is the same function. -/
def Obligations.CrcUpdateByTable : Prop :=
  ∀ (c : Word16) (b : Byte), crcUpdate c b = (c >>> 8) ^^^ crcUpdate 0x0000#16 (b ^^^ lo c) ∧ c >>> 8 = zext16 (hi c) ∧
    crcUpdate c b = crcUpdateByTable c b

/-- R69 item 5: a message followed by its checksum, low byte first, has checksum zero; high byte first it has not in
general. -/
def Obligations.ChecksumResidueIsZero : Prop :=
  (∀ s : List Byte, checksum16 (s ++ [lo (checksum16 s), hi (checksum16 s)]) = 0x0000#16) ∧
  checksum16 [0x31, 0x32, 0x33, 0x34, 0x35, 0x36, 0x37, 0x38, 0x39, 0x4B, 0x37] = 0x2121#16

/-- R69 item 6: for a fixed byte, no two register values merge and every value is reached. -/
def Obligations.CrcUpdateIsBijective : Prop :=
  ∀ b : Byte, Function.Bijective fun c : Word16 => crcUpdate c b

/-- R66: after `CRC.INIT` or `RESET`, the register holds the checksum of the bytes folded in since, whatever `SYN.*`
commands stand between. -/
def Obligations.RegisterComputesTheChecksum : Prop :=
  ∀ (s : State) (first : StepWord) (program : List StepWord), s.inv = true →
    (decodeWord first = .crcInit ∨ decodeWord first = .reset) →
    (∀ sw ∈ program, decodeWord sw ≠ .crcInit ∧ decodeWord sw ≠ .reset) →
    ∃ t, runProgram s (first :: program) = .next t ∧ t.stCrc = checksum16 (crcOperands program)

/-- R67: the checksum of a frame covers the `L + 4` bytes from the direction byte on, and is not the register's. -/
def Obligations.FrameChecksumCoverage : Prop :=
  (∀ f : List Byte, isFrame f = true → 2 ≤ (byteAt f 4).toNat →
    ∃ covered trailer, f = marker ++ covered ++ trailer ∧ covered.length = (byteAt f 4).toNat + 4 ∧
      trailer.length = 2 ∧ frameCrc f = checksum16 covered) ∧
  frameCrc [0x01, 0x00, 0x00, 0x00, 0x05, 0xAA, 0xBB, 0xCC, 0x30, 0x23, 0x00, 0x01, 0x02] = 0x8E85#16

/-! ### The synchronizer -/

/-- R74, R75, R78: `SYN.BYTE d` in mode `HUNT`. A marker that completes empties `buf` to the marker and reports the bytes
before it, if any; otherwise the byte is stored, or, in a full finite buffer, the pass ends. -/
def Obligations.HuntByteScansForTheMarker : Prop :=
  (∀ d : Byte, decodeWord (0#1 ++ 0b00#2 ++ d) = .synByte d) ∧
  ∀ (s : State) (d : Byte), s.mode = .hunt →
    (∀ before, s.buf ++ [d] = before ++ [0x01#8, 0x00#8] →
      exec (.synByte d) s = .next { s with
        mode := .frame, buf := [0x01#8, 0x00#8]
        trace := s.trace ++ [⟨none, if before = [] then none else some (.spurious before)⟩] }) ∧
    ((∀ before, s.buf ++ [d] ≠ before ++ [0x01#8, 0x00#8]) →
      ((s.cfg.bufCap = .unbounded ∨ ∃ n, s.cfg.bufCap = .bounded n ∧ s.buf.length + 1 ≤ n) →
        exec (.synByte d) s = .next { s with buf := s.buf ++ [d], trace := s.trace ++ [⟨none, none⟩] }) ∧
      (∀ n, s.cfg.bufCap = .bounded n → n < s.buf.length + 1 →
        exec (.synByte d) s = .next { s with
          mode := .failed
          trace := s.trace ++ [⟨some (.endOfPass false), some (.overflow s.buf d)⟩] }))

/-- R76, R53: in mode `FRAME` a byte that does not complete the frame is stored whatever its value. -/
def Obligations.FrameByteIsStored : Prop :=
  ∀ (s : State) (d : Byte), s.mode = .frame →
    (∀ l, (s.buf ++ [d])[4]? = some l → (s.buf ++ [d]).length ≠ 8 + l.toNat) →
    exec (.synByte d) s = .next { s with buf := s.buf ++ [d], trace := s.trace ++ [⟨none, none⟩] }

/-- R77, R99: the byte that completes a frame empties `buf`, restarts the scan and emits what the parser says of the
frame: `TOO_SHORT`, or the Message with its checksum annotation and, on a mismatch, the diagnostic beside it. -/
def Obligations.CompletedFrameIsReported : Prop :=
  ∀ (s : State) (d : Byte) (f : List Byte), s.mode = .frame → f = s.buf ++ [d] → isFrame f = true →
    ((byteAt f 4).toNat < 5 → exec (.synByte d) s = .next { s with
      mode := .hunt, buf := [], trace := s.trace ++ [⟨none, some (.tooShort f)⟩] }) ∧
    (5 ≤ (byteAt f 4).toNat → frameCrc f = trailerValue s.cfg (messageOf f) → exec (.synByte d) s = .next { s with
      mode := .hunt, buf := [], trace := s.trace ++ [⟨some (.msg (messageOf f) (frameCrc f) true), none⟩] }) ∧
    (5 ≤ (byteAt f 4).toNat → frameCrc f ≠ trailerValue s.cfg (messageOf f) → exec (.synByte d) s = .next { s with
      mode := .hunt, buf := [], trace := s.trace ++ [⟨some (.msg (messageOf f) (frameCrc f) false),
        some (.crcMismatch (frameCrc f) (messageOf f).trailer)⟩] })

/-- What the synchronizer completes is a Frame (R77), in every state that meets R17; elsewhere the parser is not given a
meaning and the model refuses (R90, D16; log 8). -/
def Obligations.CompletedSequencesAreFrames : Prop :=
  ∀ (s : State) (d : Byte) (l : Byte), s.mode = .frame → (s.buf ++ [d])[4]? = some l →
    (s.buf ++ [d]).length = 8 + l.toNat →
    (s.inv = true → isFrame (s.buf ++ [d]) = true) ∧
    (isFrame (s.buf ++ [d]) = false → exec (.synByte d) s = .refused .parseNotAFrame)

/-- R80: end-of-input while scanning ends the pass cleanly and keeps the residual bytes. -/
def Obligations.EndOfInputAtAFrameBoundary : Prop :=
  (∀ data : Byte, decodeWord (0#1 ++ 0b01#2 ++ data) = .synEoi) ∧
  ∀ s : State, s.mode = .hunt → exec .synEoi s = .next { s with
    mode := .done, trace := s.trace ++ [⟨some (.endOfPass true), none⟩] }

/-- R81: end-of-input inside a frame fails the pass and reports the truncated frame. -/
def Obligations.EndOfInputInsideAFrame : Prop :=
  ∀ s : State, s.mode = .frame → exec .synEoi s = .next { s with
    mode := .failed, trace := s.trace ++ [⟨some (.endOfPass false), some (.incomplete s.buf)⟩] }

/-- R79, R82, R107: in a terminal mode the `SYN.*` commands do nothing and the `CRC.*` commands work. -/
def Obligations.TerminalModesAbsorb : Prop :=
  ∀ s : State, s.mode = .done ∨ s.mode = .failed →
    (∀ d, exec (.synByte d) s = .next { s with trace := s.trace ++ [⟨none, none⟩] }) ∧
    exec .synEoi s = .next { s with trace := s.trace ++ [⟨none, none⟩] } ∧
    exec .crcInit s = .next { s with crc := 0xFFFF#16, trace := s.trace ++ [⟨none, none⟩] } ∧
    ∀ d, exec (.crcUpdate d) s = .next { s with crc := crcUpdate s.crc d, trace := s.trace ++ [⟨none, none⟩] }

/-- R83: the transition relation of `mode`, in every state that meets R17. -/
def Obligations.ModeTransitionsAreTheTables : Prop :=
  ∀ s : State, s.inv = true →
    let goesTo : Instr → Mode → Prop := fun i m => ∃ t, exec i s = .next t ∧ t.mode = m
    goesTo .reset .hunt ∧ goesTo .crcInit s.mode ∧ (∀ d, goesTo (.crcUpdate d) s.mode) ∧
    (s.mode = .hunt → goesTo .synEoi .done ∧ ∀ d,
      (d = 0x00#8 ∧ s.buf.getLast? = some 0x01#8 → goesTo (.synByte d) .frame) ∧
      (¬(d = 0x00#8 ∧ s.buf.getLast? = some 0x01#8) →
        (s.cfg.bufCap ≠ .bounded s.buf.length → goesTo (.synByte d) .hunt) ∧
        (s.cfg.bufCap = .bounded s.buf.length → goesTo (.synByte d) .failed))) ∧
    (s.mode = .frame → goesTo .synEoi .failed ∧ ∀ d,
      ((∃ l, (s.buf ++ [d])[4]? = some l ∧ 8 ≤ s.buf.length + 1 ∧ s.buf.length + 1 = 8 + l.toNat) →
        goesTo (.synByte d) .hunt) ∧
      ((¬∃ l, (s.buf ++ [d])[4]? = some l ∧ 8 ≤ s.buf.length + 1 ∧ s.buf.length + 1 = 8 + l.toNat) →
        goesTo (.synByte d) .frame)) ∧
    (s.mode = .done ∨ s.mode = .failed → goesTo .synEoi s.mode ∧ ∀ d, goesTo (.synByte d) s.mode)

/-- R84: a pass emits exactly one `END` if it reaches a terminal mode, as its last primary event, and none otherwise; a
pass without `SYN.EOI` that never overflows, as an unbounded one cannot, never reaches one. -/
def Obligations.OneEndEventPerPass : Prop :=
  ∀ (s t : State) (program : List StepWord), s.passStart = true → (∀ sw ∈ program, decodeWord sw ≠ .reset) →
    runProgram s program = .next t →
    (t.terminal = true → ∃ earlier, t.primary = earlier ++ [.endOfPass (t.mode == .done)] ∧
      earlier.all (fun e => !e.isEnd) = true) ∧
    (t.terminal = false → t.primary.all (fun e => !e.isEnd) = true) ∧
    ((∀ sw ∈ program, decodeWord sw ≠ .synEoi) →
      (s.cfg.bufCap = .unbounded ∨ ∀ held dropped, Diag.overflow held dropped ∉ t.diagnostic) → t.terminal = false)

/-- R39: the bytes a pass has taken in are those its events account for, then `buf`, then a dropped byte. -/
def Obligations.BytesAreConserved : Prop :=
  ∀ (s t : State) (program : List StepWord), s.passStart = true → (∀ sw ∈ program, decodeWord sw ≠ .reset) →
    runProgram s program = .next t →
    ∃ chunks : List (List Byte), List.Forall₂ Slots.accountsFor t.trace chunks ∧
      acceptedBytes s program = chunks.flatten ++ t.buf ++ t.trace.flatMap Slots.dropped

/-- R86: a stream of `n` bytes yields at most `n / 8` frames. -/
def Obligations.AtMostOneFrameInEightBytes : Prop :=
  ∀ (s t : State) (program : List StepWord), s.passStart = true → runProgram s program = .next t →
    t.framesOut ≤ (synOperands program).length / 8

/-! ### The parser -/

/-- R90, R91: a Frame with `L < 5` is `TooShort`, every other Frame is parsed, and nothing else is given a meaning. -/
def Obligations.ParseValidatesTheLength : Prop :=
  ∀ f : List Byte,
    (isFrame f = true → (byteAt f 4).toNat < 5 → parse f = .tooShort ∧
      ∀ cfg, parseAndCheck cfg f = some ⟨none, some (.tooShort f)⟩) ∧
    (isFrame f = true → 5 ≤ (byteAt f 4).toNat → parse f = .message (messageOf f)) ∧
    (isFrame f = false → parse f = .notAFrame)

/-- R92, R93: the eight fields, from a frame written out field by field. -/
def Obligations.ParseSlicesTheFields : Prop :=
  ∀ (direction flags : Byte) (typeCode : TypeCode) (id : BytePair) (subindex : Byte) (data : List Byte)
    (trailer : BytePair), data.length ≤ 250 →
    parse (frameBytes direction flags typeCode (framePayload id subindex data trailer)) = .message
      { isReply := decide (direction = 0x01#8), flags := flags, payloadLength := BitVec.ofNat 8 (5 + data.length)
        typeCode := typeCode, datapointId := id, subindex := subindex, data := data, trailer := trailer }

/-- R101: the round trip in both directions; a request's direction byte comes back as `0x00`. -/
def Obligations.ParseAndEncodeRoundTrip : Prop :=
  (∀ m : Message, m.wf = true →
    isFrame (encodeMessage m) = true ∧ 5 ≤ (byteAt (encodeMessage m) 4).toNat ∧ parse (encodeMessage m) = .message m) ∧
  ∀ (f : List Byte) (m : Message), isFrame f = true → 5 ≤ (byteAt f 4).toNat → parse f = .message m →
    m.wf = true ∧
    (byteAt f 2 = 0x00#8 ∨ byteAt f 2 = 0x01#8 → encodeMessage m = f) ∧
    (byteAt f 2 ≠ 0x00#8 → byteAt f 2 ≠ 0x01#8 → encodeMessage m = f.set 2 0x00#8)

/-- R97: which trailer byte is the low half under each order. -/
def Obligations.TrailerOrderPicksTheLowByte : Prop :=
  Config.default.trailerOrder = .loFirst ∧ ∀ (cfg : Config) (m : Message),
    (cfg.trailerOrder = .loFirst →
      lo (trailerValue cfg m) = m.trailer.first ∧ hi (trailerValue cfg m) = m.trailer.second) ∧
    (cfg.trailerOrder = .hiFirst →
      lo (trailerValue cfg m) = m.trailer.second ∧ hi (trailerValue cfg m) = m.trailer.first)

/-- R94: the four upper-case hexadecimal digits of the two bytes, first byte first, high digit first. -/
def Obligations.DatapointIdRendering : Prop :=
  let digit : Nat → Char := fun n =>
    ['0', '1', '2', '3', '4', '5', '6', '7', '8', '9', 'A', 'B', 'C', 'D', 'E', 'F'].getD n '0'
  ∀ m : Message, idString m =
    [digit (m.datapointId.first.toNat / 16), digit (m.datapointId.first.toNat % 16),
     digit (m.datapointId.second.toNat / 16), digit (m.datapointId.second.toNat % 16)]

/-! ### The frame classes -/

/-- R47, R57, R92, R98, R99: a frame with `L >= 5` delivered in mode `HUNT` is reported field by field, as a reply for
`FRAME.REPLY` and as a request for the other two classes, with `crc` and everything else unchanged. That a frame row stands
for its delivery byte by byte is the model's choice (log 5). -/
def Obligations.DeliveredFrameIsReported : Prop :=
  ∀ (s : State) (flags : Byte) (typeCode : TypeCode) (id : BytePair) (subindex : Byte) (data : List Byte)
    (trailer : BytePair), s.mode = .hunt → capExceeded s.cfg.bufCap (s.buf.length + 1) = false → data.length ≤ 250 →
    let payload := framePayload id subindex data trailer
    exec (.frameReply flags typeCode payload) s = .next (s.afterFrame (5 + data.length)
      (reportOf s.cfg true 0x01#8 flags typeCode id subindex data trailer)) ∧
    exec (.frameRequest flags typeCode payload) s = .next (s.afterFrame (5 + data.length)
      (reportOf s.cfg false 0x00#8 flags typeCode id subindex data trailer)) ∧
    ∀ direction : Byte, direction ≠ 0x00#8 → direction ≠ 0x01#8 →
      exec (.frameOther direction flags typeCode payload) s = .next (s.afterFrame (5 + data.length)
        (reportOf s.cfg false direction flags typeCode id subindex data trailer))

/-- R52, R91, R115: a frame with `L < 5` delivered in mode `HUNT` is consumed whole, reported as `TOO_SHORT`, and the scan
goes on. That a frame row stands for its delivery byte by byte is the model's choice (log 5). -/
def Obligations.DeliveredShortFrameIsSkipped : Prop :=
  ∀ (s : State) (flags : Byte) (typeCode : TypeCode) (payload : List Byte), s.mode = .hunt →
    capExceeded s.cfg.bufCap (s.buf.length + 1) = false → payload.length < 5 →
    exec (.frameReply flags typeCode payload) s = .next (s.afterFrame payload.length
      ⟨none, some (.tooShort (frameBytes 0x01#8 flags typeCode payload))⟩) ∧
    exec (.frameRequest flags typeCode payload) s = .next (s.afterFrame payload.length
      ⟨none, some (.tooShort (frameBytes 0x00#8 flags typeCode payload))⟩) ∧
    ∀ direction : Byte, exec (.frameOther direction flags typeCode payload) s = .next (s.afterFrame payload.length
      ⟨none, some (.tooShort (frameBytes direction flags typeCode payload))⟩)

/-- In every state that meets R17 and every mode, delivering a frame of any class completes, adds one pair of slots per
byte, and leaves `crc`, the configuration and the inputs alone (R13, R57). That a frame row stands for its delivery byte by byte
is the model's choice (log 5). -/
def Obligations.FrameDeliveryCompletes : Prop :=
  ∀ (s : State) (direction flags : Byte) (typeCode : TypeCode) (payload : List Byte), s.inv = true →
    ∀ i, i = .frameReply flags typeCode payload ∨ i = .frameRequest flags typeCode payload ∨
        i = .frameOther direction flags typeCode payload →
      ∃ t added, exec i s = .next t ∧ t.crc = s.crc ∧ t.cfg = s.cfg ∧ t.input = s.input ∧
        t.trace = s.trace ++ added ∧ added.length = 8 + payload.length ∧
        (s.terminal = true → t.mode = s.mode ∧ t.buf = s.buf ∧ ∀ o ∈ added, o = ⟨none, none⟩)

/-- R57: the meaning of a frame class is the run of its expansion into `SYN.BYTE` commands, from every state. That a frame
row stands for its delivery byte by byte is the model's choice (log 5), and this says that the choice adds no behaviour. -/
def Obligations.FrameIsItsExpansion : Prop :=
  ∀ (s : State) (direction flags : Byte) (typeCode : TypeCode) (payload : List Byte),
    let i := frameOfDirection direction flags typeCode payload
    runProgram s (streamProgram (frameBytes direction flags typeCode payload)) = exec i s

/-- R57 `FRAME.CK`: under either trailer order, the frame it builds is reported with `crc_ok = 1` and no diagnostic. -/
def Obligations.CheckedFramePasses : Prop :=
  ∀ (s : State) (direction flags : Byte) (typeCode : TypeCode) (id : BytePair) (subindex : Byte) (data : List Byte),
    s.mode = .hunt → capExceeded s.cfg.bufCap (s.buf.length + 1) = false → data.length ≤ 250 →
    ∃ t m c, runProgram s (frameCkProgram s.cfg direction flags typeCode id subindex data) = .next t ∧
      t.mode = .hunt ∧ t.buf = [] ∧ t.trace.getLast? = some ⟨some (.msg m c true), none⟩ ∧
      m.data = data ∧ m.datapointId = id ∧ m.isReply = decide (direction = 0x01#8)

/-! ### The whole block -/

/-- R106, R86: on every step word, the meaning of the decoded instruction is the spec's own function of the three state
elements, which has a result in every state that meets R17. That a byte which completes something that is no Frame is refused is the
model's choice (log 8). -/
def Obligations.MeaningsAreTheBlockFunction : Prop :=
  ∀ (s : State) (sw : StepWord),
    (exec (decodeWord sw) s = match blockStep s.cfg s.block sw with
      | some (b, o) => .next (s.withBlock b o)
      | none => .refused .parseNotAFrame) ∧
    (s.inv = true → (blockStep s.cfg s.block sw).isSome = true)

/-- R17: every step keeps the invariants of the state. -/
def Obligations.EveryStepKeepsTheInvariants : Prop :=
  ∀ s t : State, s.inv = true → step s = .next t → t.inv = true

/-- R17: the invariants hold at reset. -/
def Obligations.InvariantsHoldAtReset : Prop :=
  State.reset.inv = true ∧ ∀ s : State, s.cfg.wf = true → ∃ t, exec .reset s = .next t ∧ t.inv = true

/-- R17 in the spec's own words: its five items hold after reset and after every step of every run from there, under any
legal configuration and whatever inputs the host has queued. -/
def Obligations.InvariantsHoldOnEveryRun : Prop :=
  ∀ (s t : State) (n : Nat), s.cfg.wf = true → s.mode = .hunt → s.buf = [] → Host.Core.run core n s = .next t →
    let markerFree := ∀ i, ¬(t.buf[i]? = some 0x01#8 ∧ t.buf[i + 1]? = some 0x00#8)
    let frameSoFar := 2 ≤ t.buf.length ∧ t.buf[0]? = some 0x01#8 ∧ t.buf[1]? = some 0x00#8 ∧ t.buf.length ≤ 262 ∧
      ∀ l, t.buf[4]? = some l → t.buf.length < 8 + l.toNat
    (t.mode = .frame → frameSoFar) ∧
    (t.mode = .hunt ∨ t.mode = .done → markerFree) ∧
    (t.mode = .failed → frameSoFar ∨ markerFree ∧ t.cfg.bufCap = .bounded t.buf.length) ∧
    (∀ n, t.cfg.bufCap = .bounded n → t.buf.length ≤ n)

/-- R123: every step emits one of the eight pairs, with the fields R55, R91, R92 and R99 give them. -/
def Obligations.EveryStepEmitsALegalPair : Prop :=
  ∀ s t : State, s.inv = true → s.traceLegal = true → step s = .next t → t.traceLegal = true

/-- R44, R106: in every state that meets R17, every step word has a next state, which differs from the state before in
`mode`, `buf`, `crc` and one new pair of slots only. -/
def Obligations.EveryStepWordCompletes : Prop :=
  ∀ (s : State) (sw : StepWord) (rest : List Input), s.inv = true → s.input = .word sw :: rest →
    ∃ t o, step s = .next t ∧ t.cfg = s.cfg ∧ t.input = rest ∧ t.trace = s.trace ++ [o]

/-- R13: which command reads and writes which element. The `SYN.*` commands neither read nor write `crc`, `SYN.EOI` does
not write `buf`, the `CRC.*` commands neither read nor write `mode` and `buf`, `CRC.INIT` reads nothing, `RESET` reads
nothing. -/
def Obligations.ElementsAreReadAndWrittenAsTabled : Prop :=
  (∀ (s : State) (c : Word16) (i : Instr), i = .synEoi ∨ (∃ d, i = .synByte d) →
    Result.state (exec i { s with crc := c }) = (Result.state (exec i s)).map fun t => { t with crc := c }) ∧
  (∀ s t : State, exec .synEoi s = .next t → t.buf = s.buf) ∧
  (∀ (s : State) (m : Mode) (b : List Byte) (i : Instr), i = .crcInit ∨ (∃ d, i = .crcUpdate d) →
    Result.state (exec i { s with mode := m, buf := b }) =
      (Result.state (exec i s)).map fun t => { t with mode := m, buf := b }) ∧
  (∀ (s : State) (c : Word16), exec .crcInit { s with crc := c } = exec .crcInit s) ∧
  ∀ (s : State) (m : Mode) (b : List Byte) (c : Word16),
    exec .reset { s with mode := m, buf := b, crc := c } = exec .reset s

/-- R113, R117, R118, R125: whenever a step word's step raises a condition, it is one of the five, raised by the command
and in the mode the table of R113 names, under its code, with the bytes concerned in the event; `mode` and `buf` become
those of the table of R125 and nothing else changes. A fatal condition comes with `END(clean = 0)`, and after it no `SYN.*`
command has an effect. -/
def Obligations.ConditionsChangeTheStateAsTabled : Prop :=
  ∀ (s t : State) (sw : StepWord) (p : Option Prim) (x : Diag), exec (decodeWord sw) s = .next t →
    t.trace = s.trace ++ [⟨p, some x⟩] →
    t.crc = s.crc ∧ t.cfg = s.cfg ∧ t.input = s.input ∧
    (x.fatal = true → p = some (.endOfPass false) ∧
      exec .synEoi t = .next { t with trace := t.trace ++ [⟨none, none⟩] } ∧
      ∀ d, exec (.synByte d) t = .next { t with trace := t.trace ++ [⟨none, none⟩] }) ∧
    match x with
    | .spurious before =>
      x.code = 1#3 ∧ x.fatal = false ∧ p = none ∧ decodeWord sw = .synByte 0x00#8 ∧ s.mode = .hunt ∧
      s.buf ++ [0x00#8] = before ++ [0x01#8, 0x00#8] ∧ before ≠ [] ∧ t.mode = .frame ∧ t.buf = [0x01#8, 0x00#8]
    | .tooShort f =>
      x.code = 2#3 ∧ x.fatal = false ∧ p = none ∧
      (∃ d, decodeWord sw = .synByte d ∧ f = s.buf ++ [d]) ∧ s.mode = .frame ∧
      isFrame f = true ∧ (byteAt f 4).toNat < 5 ∧ t.mode = .hunt ∧ t.buf = []
    | .crcMismatch c trailer =>
      x.code = 3#3 ∧ x.fatal = false ∧ s.mode = .frame ∧
      (∃ d f, decodeWord sw = .synByte d ∧ f = s.buf ++ [d] ∧ isFrame f = true ∧ 5 ≤ (byteAt f 4).toNat ∧
        c = frameCrc f ∧ trailer = (messageOf f).trailer ∧ c ≠ trailerValue s.cfg (messageOf f) ∧
        p = some (.msg (messageOf f) c false)) ∧
      t.mode = .hunt ∧ t.buf = []
    | .incomplete part =>
      x.code = 4#3 ∧ x.fatal = true ∧ decodeWord sw = .synEoi ∧ s.mode = .frame ∧ part = s.buf ∧
      t.mode = .failed ∧ t.buf = s.buf
    | .overflow held dropped =>
      x.code = 5#3 ∧ x.fatal = true ∧ decodeWord sw = .synByte dropped ∧ s.mode = .hunt ∧ held = s.buf ∧
      (∀ before, s.buf ++ [dropped] ≠ before ++ [0x01#8, 0x00#8]) ∧
      (∃ n, s.cfg.bufCap = .bounded n ∧ n < s.buf.length + 1 ∧ (s.inv = true → n = s.buf.length)) ∧
      t.mode = .failed ∧ t.buf = s.buf

/-- R7, D6: the trailer order changes the annotation of a frame and nothing else: `crc_ok`, and whether `CRC_MISMATCH`
stands beside the `MSG`. -/
def Obligations.TrailerOrderOnlyChangesTheAnnotation : Prop :=
  ∀ (s t : State) (sw : StepWord) (order : TrailerOrder), exec (decodeWord sw) s = .next t →
    let cfg' : Config := { s.cfg with trailerOrder := order }
    ∃ u o o', exec (decodeWord sw) { s with cfg := cfg' } = .next u ∧
      u.mode = t.mode ∧ u.buf = t.buf ∧ u.crc = t.crc ∧ t.cfg = s.cfg ∧ u.cfg = cfg' ∧ u.input = t.input ∧
      t.trace = s.trace ++ [o] ∧ u.trace = s.trace ++ [o'] ∧ u.framesOut = t.framesOut ∧
      (o' = o ∨ ∃ m c, o = Slots.checked m c (c == trailerValue s.cfg m) ∧
        o' = Slots.checked m c (c == trailerValue cfg' m))

/-- R54, R55, R113: the kind codes of the two channels, 0 for an empty slot, which condition is fatal, and the eight
pairs of codes that the step of a step word can emit (R123). -/
def Obligations.EventCodesAreTheTables : Prop :=
  (∀ m c ok, Prim.code (.msg m c ok) = 1#2) ∧ (∀ clean, Prim.code (.endOfPass clean) = 2#2) ∧
  (∀ b, Diag.code (.spurious b) = 1#3 ∧ Diag.fatal (.spurious b) = false) ∧
  (∀ f, Diag.code (.tooShort f) = 2#3 ∧ Diag.fatal (.tooShort f) = false) ∧
  (∀ c tr, Diag.code (.crcMismatch c tr) = 3#3 ∧ Diag.fatal (.crcMismatch c tr) = false) ∧
  (∀ b, Diag.code (.incomplete b) = 4#3 ∧ Diag.fatal (.incomplete b) = true) ∧
  (∀ b d, Diag.code (.overflow b d) = 5#3 ∧ Diag.fatal (.overflow b d) = true) ∧
  Slots.codes ⟨none, none⟩ = (0#2, 0#3) ∧ (∀ p, Slots.codes ⟨some p, none⟩ = (p.code, 0#3)) ∧
  (∀ x, Slots.codes ⟨none, some x⟩ = (0#2, x.code)) ∧ (∀ p x, Slots.codes ⟨some p, some x⟩ = (p.code, x.code)) ∧
  ∀ (s t : State) (sw : StepWord), exec (decodeWord sw) s = .next t → ∃ o, t.trace = s.trace ++ [o] ∧
    o.codes ∈ [(0#2, 0#3), (0#2, 1#3), (0#2, 2#3), (1#2, 0#3), (1#2, 3#3), (2#2, 0#3), (2#2, 4#3), (2#2, 5#3)]

/-! ### Step lemmas behind the claims about runs -/

/-- R84 as an invariant of the step, for a pass that starts anywhere in a longer run: `before` are the primary events
emitted before the pass. Every instruction but `RESET` keeps the rule; `RESET` begins a pass with no event. -/
def Obligations.EveryStepKeepsTheEndRule : Prop :=
  ∀ (s t : State) (x : Input) (rest : List Input) (i : Instr) (before events : List Prim),
    s.input = x :: rest → decode x = .ok i → s.primary = before ++ events → endRule s.mode events →
    step s = .next t →
    (i ≠ .reset → ∃ events', t.primary = before ++ events' ∧ endRule t.mode events') ∧
    (i = .reset → t.primary = s.primary ∧ endRule t.mode [])

/-- R66 as an invariant of the step: while `crc` is the checksum of the bytes `folded` in since it was initialised, every
step leaves it so, a `CRC.UPDATE` with its byte appended, `CRC.INIT` and `RESET` with none, the `SYN.*` commands and the
frame classes with the same bytes. -/
def Obligations.EveryStepFoldsTheChecksum : Prop :=
  ∀ (s t : State) (x : Input) (rest : List Input) (i : Instr) (folded : List Byte),
    s.input = x :: rest → decode x = .ok i → s.crc = checksum16 folded → step s = .next t →
    (i = .crcInit ∨ i = .reset → t.crc = checksum16 []) ∧
    (i ≠ .crcInit → i ≠ .reset → t.crc = checksum16 (folded ++ (crcOperand i).toList))

/-- R39 for one step word that is no `RESET`: what `buf` held and the byte taken in are the bytes the new pair of slots
accounts for, then `buf`, then a dropped byte. -/
def Obligations.EveryStepConservesBytes : Prop :=
  ∀ (s t : State) (sw : StepWord), decodeWord sw ≠ .reset → exec (decodeWord sw) s = .next t →
    ∃ (o : Slots) (chunk : List Byte), t.trace = s.trace ++ [o] ∧ o.accountsFor chunk ∧
      s.buf ++ (if s.terminal then [] else (synOperand (decodeWord sw)).toList) = chunk ++ t.buf ++ o.dropped

/-- R86's bound for one step word: eight times the frames extracted, plus the bytes held, grows by at most one for a
`SYN.BYTE` and not at all for another command. -/
def Obligations.EveryStepBoundsTheFrames : Prop :=
  ∀ (s t : State) (sw : StepWord), exec (decodeWord sw) s = .next t →
    8 * t.framesOut + t.buf.length ≤
      8 * s.framesOut + s.buf.length + (synOperand (decodeWord sw)).toList.length
end

