-- ==== Sys2Proof/Laws/Bytes.lean ====
section
/-! SUPPORT. Byte sequences: the marker test, the frame tests and the slices, each said once in the form proofs use. -/

namespace Sys2Proof.Machine

open Sys2Proof

theorem last2_append_two (s : List Byte) (a b : Byte) : last2 (s ++ [a, b]) = [a, b] := by
  simp [last2]

/-- The marker test, as the decomposition it stands for (R74). -/
theorem endsInMarker_iff (s : List Byte) : endsInMarker s = true ↔ ∃ sp, s = sp ++ marker := by
  constructor
  · intro h
    simp only [endsInMarker, Bool.and_eq_true, beq_iff_eq, last2] at h
    exact ⟨s.take (s.length - 2), by rw [← h.2, List.take_append_drop]⟩
  · rintro ⟨sp, rfl⟩
    simp [endsInMarker, marker, last2_append_two]

/-- The marker test after an append looks at the last byte before it and at the byte appended (R17 item 3, R83). -/
theorem endsInMarker_append (b : List Byte) (d : Byte) :
    endsInMarker (b ++ [d]) = (b.getLast? == some marker0 && d == marker1) := by
  rcases List.eq_nil_or_concat b with rfl | ⟨c, x, rfl⟩
  · simp [endsInMarker]
  · have : c ++ [x] ++ [d] = c ++ [x, d] := by simp
    simp [endsInMarker, this, last2_append_two, marker]

theorem noMarker_cons_cons (a b : Byte) (rest : List Byte) :
    noMarker (a :: b :: rest) = (!(a == marker0 && b == marker1) && noMarker (b :: rest)) := rfl

/-- Appending a byte keeps the buffer free of markers exactly when the marker test fails. -/
theorem noMarker_append (b : List Byte) (d : Byte) :
    noMarker (b ++ [d]) = (noMarker b && !endsInMarker (b ++ [d])) := by
  rw [endsInMarker_append]
  induction b with
  | nil => rfl
  | cons x xs ih =>
    cases xs with
    | nil => simp [noMarker]
    | cons y ys =>
      simp only [List.cons_append, noMarker_cons_cons] at ih ⊢
      rw [ih]
      simp [List.getLast?_cons_cons, Bool.and_assoc]

/-- The index form of R17 item 3. -/
theorem noMarker_iff (b : List Byte) :
    noMarker b = true ↔ ∀ i, ¬(b[i]? = some marker0 ∧ b[i + 1]? = some marker1) := by
  induction b with
  | nil => simp [noMarker]
  | cons x xs ih =>
    cases xs with
    | nil => simp [noMarker]
    | cons y ys =>
      rw [noMarker_cons_cons, Bool.and_eq_true, ih]
      constructor
      · rintro ⟨h, hi⟩ (_ | i)
        · simpa [imp_iff_not_or] using h
        · simpa using hi i
      · intro h
        exact ⟨by simpa [imp_iff_not_or] using h 0, fun i => by simpa using h (i + 1)⟩

theorem lengthByte_append (s : List Byte) (d : Byte) (h : 5 ≤ s.length) : lengthByte (s ++ [d]) = lengthByte s := by
  simp [lengthByte, List.getElem?_append_left (show 4 < s.length by omega)]

/-- A Frame taken apart (R45). -/
theorem isFrame_iff (f : List Byte) :
    isFrame f = true ↔ ∃ dir flags len t0 t1 t2 payload,
      f = marker0 :: marker1 :: dir :: flags :: len :: t0 :: t1 :: t2 :: payload ∧ payload.length = len.toNat := by
  constructor
  · intro h
    match f with
    | [] => simp [isFrame, hdrLen] at h
    | [_] => simp [isFrame, hdrLen] at h
    | [_, _] => simp [isFrame, hdrLen] at h
    | [_, _, _] => simp [isFrame, hdrLen] at h
    | [_, _, _, _] => simp [isFrame, hdrLen] at h
    | [_, _, _, _, _] => simp [isFrame, hdrLen] at h
    | [_, _, _, _, _, _] => simp [isFrame, hdrLen] at h
    | [_, _, _, _, _, _, _] => simp [isFrame, hdrLen] at h
    | m0 :: m1 :: dir :: flags :: len :: t0 :: t1 :: t2 :: payload =>
      simp [isFrame, hdrLen, byteAt, frameComplete, lengthByte] at h
      obtain ⟨⟨rfl, rfl⟩, h⟩ := h
      exact ⟨dir, flags, len, t0, t1, t2, payload, rfl, by simpa [Nat.add_comm 8] using h⟩
  · rintro ⟨dir, flags, len, t0, t1, t2, payload, rfl, h⟩
    simp [isFrame, hdrLen, byteAt, frameComplete, lengthByte, h]
    omega

/-- The bytes of a frame whose payload fits are a Frame (R45). -/
theorem isFrame_frameBytes (direction flags : Byte) (typeCode : TypeCode) (payload : List Byte)
    (h : payload.length ≤ 255) : isFrame (frameBytes direction flags typeCode payload) = true :=
  (isFrame_iff _).2 ⟨direction, flags, _, _, _, _, payload, rfl, by simp; omega⟩

@[simp] theorem frameBytes_length (direction flags : Byte) (typeCode : TypeCode) (payload : List Byte) :
    (frameBytes direction flags typeCode payload).length = 8 + payload.length := by
  simp [frameBytes]; omega

/-- A frame in progress taken apart at its marker (R17 items 1 and 2). -/
theorem framePart_iff (b : List Byte) :
    framePart b = true ↔ (∃ rest, b = marker0 :: marker1 :: rest) ∧ ∀ l, lengthByte b = some l → b.length < 8 + l := by
  match b with
  | [] => simp [framePart]
  | [_] => simp [framePart]
  | a :: c :: rest =>
    simp only [framePart, byteAt, hdrLen]
    cases lengthByte (a :: c :: rest) with
    | none => simp
    | some l =>
      simp only [Option.some.injEq, forall_eq']
      simp [and_assoc]
      exact fun _ _ => decide_eq_true_iff

/-- The completed bytes of a frame in progress are a Frame (R77). -/
theorem isFrame_of_framePart (b : List Byte) (d : Byte) (hb : framePart b = true)
    (hc : frameComplete (b ++ [d]) = true) : isFrame (b ++ [d]) = true := by
  obtain ⟨⟨rest, rfl⟩, -⟩ := (framePart_iff b).1 hb
  have hl : 8 ≤ (marker0 :: marker1 :: rest ++ [d]).length := by
    unfold frameComplete at hc
    split at hc
    · have := of_decide_eq_true hc
      simp only [hdrLen] at this; omega
    · cases hc
  simp only [isFrame, hc, hdrLen, hl, byteAt]
  rfl

end Sys2Proof.Machine
end

