-- ==== Sys2Proof/Laws/Checksum.lean ====
section
/-! SUPPORT. The checksum engine and the halves of a word. -/

namespace Sys2Proof.Machine

open Sys2Proof

/-- `crc_bit` as a shift and a conditional mask (R60). -/
theorem crcBit_eq (c : Word16) : crcBit c = (c >>> 1) ^^^ (if c.getLsbD 0 then crcXor else 0#16) := by
  unfold crcBit
  split <;> simp

@[simp] theorem crcBits_zero (c : Word16) : crcBits 0 c = c := rfl

@[simp] theorem crcBits_succ (n : Nat) (c : Word16) : crcBits (n + 1) c = crcBits n (crcBit c) := rfl

theorem zext16_xor (a b : Byte) : zext16 (a ^^^ b) = zext16 a ^^^ zext16 b := by
  ext i hi
  simp [zext16]

@[simp] theorem checksum16_nil : checksum16 [] = 0xFFFF#16 := rfl

/-- The checksum of an appended sequence goes on from that of the first (R69 item 2). -/
theorem checksum16_append (s t : List Byte) : checksum16 (s ++ t) = t.foldl crcUpdate (checksum16 s) := by
  simp [checksum16]

/-- The bits of `w16` (R8). -/
theorem getLsbD_w16 (l h : Byte) (i : Nat) :
    (w16 l h).getLsbD i = if i < 8 then l.getLsbD i else h.getLsbD (i - 8) := by
  show (h ++ l : BitVec (8 + 8)).getLsbD i = _
  rw [BitVec.getLsbD_append]

@[simp] theorem lo_w16 (l h : Byte) : lo (w16 l h) = l := by
  apply BitVec.eq_of_getLsbD_eq
  intro i hi'
  rw [lo, BitVec.getLsbD_extractLsb', getLsbD_w16]
  simp [hi']

@[simp] theorem hi_w16 (l h : Byte) : hi (w16 l h) = h := by
  apply BitVec.eq_of_getLsbD_eq
  intro i hi'
  rw [hi, BitVec.getLsbD_extractLsb', getLsbD_w16]
  simp [hi']

@[simp] theorem w16_lo_hi (c : Word16) : w16 (lo c) (hi c) = c := by
  apply BitVec.eq_of_getLsbD_eq
  intro i hi'
  rw [getLsbD_w16]
  by_cases h : i < 8
  · simp [h, lo]
  · simp [h, hi, show 8 + (i - 8) = i by omega]
    omega

/-- A word is its high byte in place and its low byte below (R8). -/
theorem w16_eq_xor (l h : Byte) : w16 l h = w16 0x00#8 h ^^^ zext16 l := by
  apply BitVec.eq_of_getLsbD_eq
  intro i hi'
  rw [BitVec.getLsbD_xor, getLsbD_w16, getLsbD_w16]
  by_cases h : i < 8
  · simp [h, zext16, hi']
  · have hl : l.getLsbD i = false := BitVec.getLsbD_of_ge _ _ (by omega)
    simp [h, zext16, hi', hl]

/-- The shift by eight keeps the high byte (R69 item 4). -/
theorem shiftRight_eight (c : Word16) : c >>> 8 = zext16 (hi c) := by
  apply BitVec.eq_of_getLsbD_eq
  intro i hi'
  simp only [hi, zext16, BitVec.getLsbD_ushiftRight, BitVec.getLsbD_setWidth, BitVec.getLsbD_extractLsb', hi',
    decide_true, Bool.true_and]
  by_cases h : i < 8
  · simp [h]
  · rw [BitVec.getLsbD_of_ge _ _ (by omega)]
    simp [h]

/-- The trailer of `FRAME.CK` stands for the checksum it was made from, under either order (R57, R97). -/
theorem trailerValue_goodTrailer (cfg : Config) (m : Message) (c : Word16) (h : m.trailer = goodTrailer cfg c) :
    trailerValue cfg m = c := by
  cases hc : cfg.trailerOrder <;> simp only [goodTrailer, hc] at h <;> simp [trailerValue, hc, h]

end Sys2Proof.Machine
end

