-- ==== Sys2Proof/Laws/Encoding.lean ====
section
/-! SUPPORT. The encodings: the fields of a step word, what a frame row of R47 tests, and the decoder on a Frame. -/

namespace Sys2Proof.Machine

open Sys2Proof

theorem bitVec_append_inj {n m : Nat} (a c : BitVec n) (b d : BitVec m) : a ++ b = c ++ d ↔ a = c ∧ b = d := by
  constructor
  · intro h
    constructor
    · ext i hi
      have := congrArg (fun v => v.getLsbD (m + i)) h
      simpa [BitVec.getLsbD_append, BitVec.getLsbD_eq_getElem hi] using this
    · ext i hi
      have := congrArg (fun v => v.getLsbD i) h
      simpa [BitVec.getLsbD_append, hi] using this
  · rintro ⟨rfl, rfl⟩
    rfl

/-- The bits of a step word (R40). -/
theorem getLsbD_stepWord (rst : BitVec 1) (op : BitVec 2) (data : Byte) (i : Nat) :
    (stepWord rst op data).getLsbD i =
      if i < 8 then data.getLsbD i else if i - 8 < 2 then op.getLsbD (i - 8) else rst.getLsbD (i - 8 - 2) := by
  show (rst ++ op ++ data : BitVec (1 + 2 + 8)).getLsbD i = _
  rw [BitVec.getLsbD_append, BitVec.getLsbD_append]

/-- The fields of a step word are those it was put together from (R40). -/
theorem fields_stepWord (rst : BitVec 1) (op : BitVec 2) (data : Byte) :
    fieldRst (stepWord rst op data) = rst ∧ fieldOp (stepWord rst op data) = op ∧
      fieldData (stepWord rst op data) = data := by
  refine ⟨?_, ?_, ?_⟩ <;> apply BitVec.eq_of_getLsbD_eq <;> intro i hi
  · rw [fieldRst, BitVec.getLsbD_extractLsb', getLsbD_stepWord]
    simp [show i = 0 by omega]
  · rw [fieldOp, BitVec.getLsbD_extractLsb', getLsbD_stepWord]
    simp [hi]
  · rw [fieldData, BitVec.getLsbD_extractLsb', getLsbD_stepWord]
    simp [hi]

/-- The bitwise AND of two values of eight bytes, byte by byte. -/
theorem and_eight (a0 a1 a2 a3 a4 a5 a6 a7 b0 b1 b2 b3 b4 b5 b6 b7 : Byte) :
    ((a0 ++ a1 ++ a2 ++ a3 ++ a4 ++ a5 ++ a6 ++ a7 : BitVec (8 + 8 + 8 + 8 + 8 + 8 + 8 + 8)) &&&
      (b0 ++ b1 ++ b2 ++ b3 ++ b4 ++ b5 ++ b6 ++ b7)) =
    ((a0 &&& b0) ++ (a1 &&& b1) ++ (a2 &&& b2) ++ (a3 &&& b3) ++ (a4 &&& b4) ++ (a5 &&& b5) ++ (a6 &&& b6) ++
      (a7 &&& b7)) := by
  simp only [BitVec.and_append]

/-- What a row of R47 with the mask `FFFFFF0000000000` tests: the marker and the direction byte. -/
theorem matches_direction (r : Mnemonic) (f : List Byte) (p : Byte) :
    TableRow.matches ⟨r, ((0x01#8 ++ 0x00#8 ++ p ++ 0#8 ++ 0#8 ++ 0#8 ++ 0#8 ++ 0#8 :
      BitVec (8 + 8 + 8 + 8 + 8 + 8 + 8 + 8))), 0xFFFFFF0000000000#64⟩ (headerValue f) =
      (byteAt f 0 == 0x01#8 && byteAt f 1 == 0x00#8 && byteAt f 2 == p) := by
  have hm : 0xFFFFFF0000000000#64 =
      ((255#8 ++ 255#8 ++ 255#8 ++ 0#8 ++ 0#8 ++ 0#8 ++ 0#8 ++ 0#8 : BitVec (8 + 8 + 8 + 8 + 8 + 8 + 8 + 8))) := by
    decide
  have ones : 255#8 = BitVec.allOnes 8 := rfl
  unfold TableRow.matches headerValue
  dsimp only
  rw [hm, and_eight, Bool.eq_iff_iff]
  simp only [beq_iff_eq, bitVec_append_inj, ones, BitVec.and_allOnes, BitVec.and_zero, and_true, Bool.and_eq_true]

/-- What a row of R47 with the mask `FFFF000000000000` tests: the marker only. -/
theorem matches_marker (r : Mnemonic) (f : List Byte) :
    TableRow.matches ⟨r, ((0x01#8 ++ 0x00#8 ++ 0#8 ++ 0#8 ++ 0#8 ++ 0#8 ++ 0#8 ++ 0#8 :
      BitVec (8 + 8 + 8 + 8 + 8 + 8 + 8 + 8))), 0xFFFF000000000000#64⟩ (headerValue f) =
      (byteAt f 0 == 0x01#8 && byteAt f 1 == 0x00#8) := by
  have hm : 0xFFFF000000000000#64 =
      ((255#8 ++ 255#8 ++ 0#8 ++ 0#8 ++ 0#8 ++ 0#8 ++ 0#8 ++ 0#8 : BitVec (8 + 8 + 8 + 8 + 8 + 8 + 8 + 8))) := by
    decide
  have ones : 255#8 = BitVec.allOnes 8 := rfl
  unfold TableRow.matches headerValue
  dsimp only
  rw [hm, and_eight, Bool.eq_iff_iff]
  simp only [beq_iff_eq, bitVec_append_inj, ones, BitVec.and_allOnes, BitVec.and_zero, and_true, Bool.and_eq_true]

/-- The first matching row of R47 over the header value, by the direction byte. -/
theorem frameRows_find (f : List Byte) (h0 : byteAt f 0 = marker0) (h1 : byteAt f 1 = marker1) :
    ((frameRows.find? fun r => r.matches (headerValue f)).map TableRow.row) =
      some (if byteAt f 2 = 0x01#8 then .frameReply else if byteAt f 2 = 0x00#8 then .frameRequest else .frameOther) := by
  have hr := matches_direction .frameReply f 0x01#8
  have hq := matches_direction .frameRequest f 0x00#8
  have ho := matches_marker .frameOther f
  simp only [h0, h1, marker0, marker1, BEq.rfl, Bool.true_and] at hr hq ho
  unfold frameRows
  by_cases c1 : byteAt f 2 = 0x01#8
  · rw [List.find?_cons_of_pos (by exact hr.trans (by simp [c1]))]
    simp [c1]
  · rw [List.find?_cons_of_neg (by intro h; exact c1 (by simpa using hr.symm.trans h))]
    by_cases c0 : byteAt f 2 = 0x00#8
    · rw [List.find?_cons_of_pos (by exact hq.trans (by simp [c0]))]
      simp [c0]
    · rw [List.find?_cons_of_neg (by intro h; exact c0 (by simpa using hq.symm.trans h)),
        List.find?_cons_of_pos (by exact ho)]
      simp [c0, c1]

/-- The decoder on the bytes of a frame whose payload fits (R45, R47). -/
theorem decodeFrame_frameBytes (direction flags : Byte) (typeCode : TypeCode) (payload : List Byte)
    (h : payload.length ≤ 255) :
    decodeFrame (frameBytes direction flags typeCode payload) =
      .ok (frameOfDirection direction flags typeCode payload) := by
  simp only [decodeFrame, isFrame_frameBytes direction flags typeCode payload h]
  rfl

/-- A Frame is the frame bytes of its fields (R45). -/
theorem eq_frameBytes_of_isFrame (f : List Byte) (h : isFrame f = true) :
    f = frameBytes (byteAt f 2) (byteAt f 3) ⟨byteAt f 5, byteAt f 6, byteAt f 7⟩ (f.drop hdrLen) ∧
      (f.drop hdrLen).length = (byteAt f 4).toNat := by
  obtain ⟨dir, flags, len, t0, t1, t2, payload, rfl, hl⟩ := (isFrame_iff f).1 h
  simp [frameBytes, byteAt, hdrLen, hl]

end Sys2Proof.Machine
end

