-- ==== Sys2Proof/Laws/State.lean ====
section
/-! SUPPORT. What each state update leaves in each field of State, one lemma a field. -/

namespace Sys2Proof.Machine

@[simp] theorem setMode_mode (s : State) (m : Mode) : (s.setMode m).mode = m := rfl
@[simp] theorem setMode_buf (s : State) (m : Mode) : (s.setMode m).buf = s.buf := rfl
@[simp] theorem setMode_crc (s : State) (m : Mode) : (s.setMode m).crc = s.crc := rfl
@[simp] theorem setMode_cfg (s : State) (m : Mode) : (s.setMode m).cfg = s.cfg := rfl
@[simp] theorem setMode_input (s : State) (m : Mode) : (s.setMode m).input = s.input := rfl
@[simp] theorem setMode_trace (s : State) (m : Mode) : (s.setMode m).trace = s.trace := rfl

@[simp] theorem setBuf_mode (s : State) (b : List Byte) : (s.setBuf b).mode = s.mode := rfl
@[simp] theorem setBuf_buf (s : State) (b : List Byte) : (s.setBuf b).buf = b := rfl
@[simp] theorem setBuf_crc (s : State) (b : List Byte) : (s.setBuf b).crc = s.crc := rfl
@[simp] theorem setBuf_cfg (s : State) (b : List Byte) : (s.setBuf b).cfg = s.cfg := rfl
@[simp] theorem setBuf_input (s : State) (b : List Byte) : (s.setBuf b).input = s.input := rfl
@[simp] theorem setBuf_trace (s : State) (b : List Byte) : (s.setBuf b).trace = s.trace := rfl

@[simp] theorem setCrc_mode (s : State) (c : Word16) : (s.setCrc c).mode = s.mode := rfl
@[simp] theorem setCrc_buf (s : State) (c : Word16) : (s.setCrc c).buf = s.buf := rfl
@[simp] theorem setCrc_crc (s : State) (c : Word16) : (s.setCrc c).crc = c := rfl
@[simp] theorem setCrc_cfg (s : State) (c : Word16) : (s.setCrc c).cfg = s.cfg := rfl
@[simp] theorem setCrc_input (s : State) (c : Word16) : (s.setCrc c).input = s.input := rfl
@[simp] theorem setCrc_trace (s : State) (c : Word16) : (s.setCrc c).trace = s.trace := rfl

@[simp] theorem bufAppend_mode (s : State) (d : Byte) : (s.bufAppend d).mode = s.mode := rfl
@[simp] theorem bufAppend_buf (s : State) (d : Byte) : (s.bufAppend d).buf = s.buf ++ [d] := rfl
@[simp] theorem bufAppend_crc (s : State) (d : Byte) : (s.bufAppend d).crc = s.crc := rfl
@[simp] theorem bufAppend_cfg (s : State) (d : Byte) : (s.bufAppend d).cfg = s.cfg := rfl
@[simp] theorem bufAppend_input (s : State) (d : Byte) : (s.bufAppend d).input = s.input := rfl
@[simp] theorem bufAppend_trace (s : State) (d : Byte) : (s.bufAppend d).trace = s.trace := rfl

@[simp] theorem emit_mode (s : State) (p : Option Prim) (g : Option Diag) : (s.emit p g).mode = s.mode := rfl
@[simp] theorem emit_buf (s : State) (p : Option Prim) (g : Option Diag) : (s.emit p g).buf = s.buf := rfl
@[simp] theorem emit_crc (s : State) (p : Option Prim) (g : Option Diag) : (s.emit p g).crc = s.crc := rfl
@[simp] theorem emit_cfg (s : State) (p : Option Prim) (g : Option Diag) : (s.emit p g).cfg = s.cfg := rfl
@[simp] theorem emit_input (s : State) (p : Option Prim) (g : Option Diag) : (s.emit p g).input = s.input := rfl
@[simp] theorem emit_trace (s : State) (p : Option Prim) (g : Option Diag) : (s.emit p g).trace = s.trace ++ [⟨p, g⟩] := rfl

@[simp] theorem quiet_mode (s : State) : (s.quiet).mode = s.mode := rfl
@[simp] theorem quiet_buf (s : State) : (s.quiet).buf = s.buf := rfl
@[simp] theorem quiet_crc (s : State) : (s.quiet).crc = s.crc := rfl
@[simp] theorem quiet_cfg (s : State) : (s.quiet).cfg = s.cfg := rfl
@[simp] theorem quiet_input (s : State) : (s.quiet).input = s.input := rfl
@[simp] theorem quiet_trace (s : State) : (s.quiet).trace = s.trace ++ [⟨none, none⟩] := rfl

@[simp] theorem takeInput_mode (s : State) (rest : List Input) : (s.takeInput rest).mode = s.mode := rfl
@[simp] theorem takeInput_buf (s : State) (rest : List Input) : (s.takeInput rest).buf = s.buf := rfl
@[simp] theorem takeInput_crc (s : State) (rest : List Input) : (s.takeInput rest).crc = s.crc := rfl
@[simp] theorem takeInput_cfg (s : State) (rest : List Input) : (s.takeInput rest).cfg = s.cfg := rfl
@[simp] theorem takeInput_input (s : State) (rest : List Input) : (s.takeInput rest).input = rest := rfl
@[simp] theorem takeInput_trace (s : State) (rest : List Input) : (s.takeInput rest).trace = s.trace := rfl

@[simp] theorem withFetchWord_mode (s : State) (n w : Nat) : (s.withFetchWord n w).mode = s.mode := rfl
@[simp] theorem withFetchWord_buf (s : State) (n w : Nat) : (s.withFetchWord n w).buf = s.buf := rfl
@[simp] theorem withFetchWord_crc (s : State) (n w : Nat) : (s.withFetchWord n w).crc = s.crc := rfl
@[simp] theorem withFetchWord_cfg (s : State) (n w : Nat) : (s.withFetchWord n w).cfg = s.cfg := rfl
@[simp] theorem withFetchWord_input (s : State) (n w : Nat) : (s.withFetchWord n w).input = tableInput n w :: s.input := rfl
@[simp] theorem withFetchWord_trace (s : State) (n w : Nat) : (s.withFetchWord n w).trace = s.trace := rfl

@[simp] theorem load_mode (s : State) (p : List StepWord) : (s.load p).mode = s.mode := rfl
@[simp] theorem load_buf (s : State) (p : List StepWord) : (s.load p).buf = s.buf := rfl
@[simp] theorem load_crc (s : State) (p : List StepWord) : (s.load p).crc = s.crc := rfl
@[simp] theorem load_cfg (s : State) (p : List StepWord) : (s.load p).cfg = s.cfg := rfl
@[simp] theorem load_input (s : State) (p : List StepWord) : (s.load p).input = asInputs p ++ s.input := rfl
@[simp] theorem load_trace (s : State) (p : List StepWord) : (s.load p).trace = s.trace := rfl

@[simp] theorem withBlock_mode (s : State) (b : Block) (o : Slots) : (s.withBlock b o).mode = b.mode := rfl
@[simp] theorem withBlock_buf (s : State) (b : Block) (o : Slots) : (s.withBlock b o).buf = b.buf := rfl
@[simp] theorem withBlock_crc (s : State) (b : Block) (o : Slots) : (s.withBlock b o).crc = b.crc := rfl
@[simp] theorem withBlock_cfg (s : State) (b : Block) (o : Slots) : (s.withBlock b o).cfg = s.cfg := rfl
@[simp] theorem withBlock_input (s : State) (b : Block) (o : Slots) : (s.withBlock b o).input = s.input := rfl
@[simp] theorem withBlock_trace (s : State) (b : Block) (o : Slots) : (s.withBlock b o).trace = s.trace ++ [o] := rfl

end Sys2Proof.Machine
end

