-- ==== Sys2Proof/Laws/Ops.lean ====
section
/-! SUPPORT. What the shared operations and the meanings can do, each said once. -/

namespace Sys2Proof.Machine

open Sys2Proof

@[simp] theorem andThen_next (s : State) (f : State → Result) : Result.andThen (.next s) f = f s := rfl

@[simp] theorem andThen_fault (e : Fault) (f : State → Result) : Result.andThen (.fault e) f = .fault e := rfl

@[simp] theorem andThen_refused (e : Refusal) (f : State → Result) : Result.andThen (.refused e) f = .refused e := rfl

/-- A sequence goes on exactly when both of its parts do. -/
theorem andThen_eq_next {r : Result} {f : State → Result} {t : State} :
    Result.andThen r f = .next t ↔ ∃ s, r = .next s ∧ f s = .next t := by
  cases r <;> simp

@[simp] theorem result_state_next (s : State) : Result.state (.next s) = some s := rfl

/-- Everything raising a condition does (R125). -/
theorem raise_eq (x : Diag) (own : Option Prim) (s : State) :
    raise x own s = .next { s with
      mode := x.modeAfter, buf := x.bufAfter s.buf, trace := s.trace ++ [⟨x.primWith own, some x⟩] } := rfl

/-- What handing a completed sequence to the parser can answer (R77, R99). -/
theorem completeFrame_eq (f : List Byte) (s : State) :
    completeFrame f s = match parseAndCheck s.cfg f with
      | none => .refused .parseNotAFrame
      | some o => .next { s with mode := .hunt, buf := [], trace := s.trace ++ [o] } := by
  unfold completeFrame parseAndCheck
  cases parse f with
  | notAFrame => rfl
  | tooShort => rfl
  | message m =>
    dsimp only
    cases crcOk s.cfg m (frameCrc f) <;> rfl

/-- The parser has events for every Frame (R90). -/
theorem parseAndCheck_isSome (cfg : Config) (f : List Byte) : (parseAndCheck cfg f).isSome = isFrame f := by
  unfold parseAndCheck parse
  cases isFrame f with
  | false => simp
  | true =>
    simp only [Bool.not_true]
    by_cases h : (byteAt f 4).toNat < minPayload
    · simp [h]
    · simp only [h, if_false]
      split <;> simp_all
      split at * <;> simp_all

/-- Everything `SYN.BYTE` can answer in mode `HUNT` (R74, R75, R78). -/
theorem huntByte_eq (d : Byte) (s : State) :
    huntByte d s =
      if endsInMarker (s.buf ++ [d]) then
        .next { s with mode := .frame, buf := marker, trace := s.trace ++
          [⟨none, if s.buf.dropLast = [] then none else some (.spurious s.buf.dropLast)⟩] }
      else if capExceeded s.cfg.bufCap (s.buf.length + 1) then
        .next { s with mode := .failed, trace := s.trace ++ [⟨some (.endOfPass false), some (.overflow s.buf d)⟩] }
      else .next { s with buf := s.buf ++ [d], trace := s.trace ++ [⟨none, none⟩] } := by
  unfold huntByte
  simp only [List.length_append, List.length_cons, List.length_nil, Nat.zero_add]
  split
  · have : (s.buf ++ [d]).take (s.buf.length + 1 - 2) = s.buf.dropLast := by
      rw [List.dropLast_eq_take, List.take_append_of_le_length (by omega)]
      rfl
    rw [this]
    cases s.buf.dropLast <;> rfl
  · split <;> rfl

/-- Everything `SYN.BYTE` can answer in mode `FRAME` (R76, R77). -/
theorem frameByte_eq (d : Byte) (s : State) :
    frameByte d s =
      if frameComplete (s.buf ++ [d]) then
        match parseAndCheck s.cfg (s.buf ++ [d]) with
        | none => .refused .parseNotAFrame
        | some o => .next { s with mode := .hunt, buf := [], trace := s.trace ++ [o] }
      else .next { s with buf := s.buf ++ [d], trace := s.trace ++ [⟨none, none⟩] } := by
  unfold frameByte
  rw [← completeFrame_eq]
  rfl

/-- Every `SYN.BYTE` that goes on moves the position and adds one pair of slots; it is refused only where the completed
bytes are not a Frame. -/
theorem execSynByte_cases (d : Byte) (s : State) :
    (∃ m b o, execSynByte d s = .next { s with mode := m, buf := b, trace := s.trace ++ [o] }) ∨
    (s.mode = .frame ∧ frameComplete (s.buf ++ [d]) = true ∧ isFrame (s.buf ++ [d]) = false ∧
      execSynByte d s = .refused .parseNotAFrame) := by
  unfold execSynByte
  split
  · rw [huntByte_eq]
    left
    split
    · exact ⟨_, _, _, rfl⟩
    · split
      · exact ⟨_, s.buf, _, rfl⟩
      · exact ⟨s.mode, _, _, rfl⟩
  · rename_i hm
    rw [frameByte_eq]
    split
    · rename_i hc
      have hp := parseAndCheck_isSome s.cfg (s.buf ++ [d])
      cases h : parseAndCheck s.cfg (s.buf ++ [d]) with
      | none => exact .inr ⟨hm, hc, by simpa [h] using hp.symm, rfl⟩
      | some o => exact .inl ⟨_, _, _, rfl⟩
    · exact .inl ⟨s.mode, _, _, rfl⟩
  · exact .inl ⟨s.mode, s.buf, _, rfl⟩
  · exact .inl ⟨s.mode, s.buf, _, rfl⟩

/-- Every `SYN.EOI` goes on, writes `mode` only and adds one pair of slots (R80 to R82). -/
theorem execSynEoi_eq (s : State) :
    execSynEoi s = .next { s with
      mode := match s.mode with | .hunt => .done | .frame => .failed | .done => .done | .failed => .failed
      trace := s.trace ++ [match s.mode with
        | .hunt => ⟨some (.endOfPass true), none⟩
        | .frame => ⟨some (.endOfPass false), some (.incomplete s.buf)⟩
        | .done => ⟨none, none⟩
        | .failed => ⟨none, none⟩] } := by
  cases s with
  | mk mode buf crc cfg input trace => cases mode <;> rfl

/-- Delivering the bytes of `a` and then those of `b` is delivering `a ++ b`. -/
theorem stream_append (a b : List Byte) (s : State) :
    stream (a ++ b) s = Result.andThen (stream a s) (stream b) := by
  induction a generalizing s with
  | nil => rfl
  | cons x xs ih =>
    simp only [List.cons_append, stream]
    cases execSynByte x s with
    | next t => simpa using ih t
    | fault e => rfl
    | refused e => rfl

end Sys2Proof.Machine
end

