-- ==== Sys2Proof/Laws/Parser.lean ====
section
/-! SUPPORT. The parser's domain, and Frames written out field by field. -/

namespace Sys2Proof.Machine

open Sys2Proof

theorem message_wf_iff (m : Message) : m.wf = true ↔ m.payloadLength.toNat = 5 + m.data.length := decide_eq_true_iff

/-- The completion test of R76 in the words of the rule. -/
theorem frameComplete_iff (b : List Byte) :
    frameComplete b = true ↔ ∃ l : Byte, b[4]? = some l ∧ b.length = 8 + l.toNat := by
  unfold frameComplete lengthByte hdrLen
  cases b[4]? <;> simp

theorem frameComplete_of_isFrame (f : List Byte) (h : isFrame f = true) : frameComplete f = true := by
  simp only [isFrame, Bool.and_eq_true] at h
  exact h.2

theorem parse_of_not_isFrame (f : List Byte) (h : isFrame f = false) : parse f = .notAFrame := by
  simp [parse, h]

theorem byteAt_append (a b : List Byte) (i : Nat) : byteAt (a ++ b) (a.length + i) = byteAt b i := by
  simp [byteAt, List.getD_eq_getElem?_getD, List.getElem?_append_right]

@[simp] theorem framePayload_length (id : BytePair) (subindex : Byte) (data : List Byte) (trailer : BytePair) :
    (framePayload id subindex data trailer).length = 5 + data.length := by
  simp [framePayload, BytePair.bytes]
  omega

/-- Every Frame with `L >= 5` is written out by its fields (R48). -/
theorem exists_fields_of_isFrame (f : List Byte) (h : isFrame f = true) (hl : 5 ≤ (byteAt f 4).toNat) :
    ∃ direction flags typeCode id subindex data trailer,
      f = frameBytes direction flags typeCode (framePayload id subindex data trailer) ∧ data.length ≤ 250 ∧
        byteAt f 2 = direction := by
  obtain ⟨direction, flags, len, t0, t1, t2, payload, rfl, hp⟩ := (isFrame_iff f).1 h
  have hl : 5 ≤ len.toNat := hl
  have := len.isLt
  match payload, hp with
  | p0 :: p1 :: sub :: rest, hp =>
    simp only [List.length_cons] at hp
    obtain ⟨a, b, hab⟩ : ∃ a b, rest.drop (rest.length - 2) = [a, b] := by
      have : (rest.drop (rest.length - 2)).length = 2 := by simp; omega
      match rest.drop (rest.length - 2), this with
      | [a, b], _ => exact ⟨a, b, rfl⟩
    refine ⟨direction, flags, ⟨t0, t1, t2⟩, ⟨p0, p1⟩, sub, rest.take (rest.length - 2), ⟨a, b⟩, ?_, by simp; omega, rfl⟩
    have hrest : rest.take (rest.length - 2) ++ [a, b] = rest := by rw [← hab]; simp
    have hpay : framePayload ⟨p0, p1⟩ sub (rest.take (rest.length - 2)) ⟨a, b⟩ = p0 :: p1 :: sub :: rest := by
      conv => rhs; rw [← hrest]
      simp [framePayload, BytePair.bytes]
    rw [hpay, frameBytes]
    simp [hp]
  | [], hp => simp at hp; omega
  | [_], hp => simp at hp; omega
  | [_, _], hp => simp at hp; omega

/-- `encode` of a Message writes the frame of its fields (R100). -/
theorem encodeMessage_eq (m : Message) (h : m.wf = true) :
    encodeMessage m = frameBytes (if m.isReply then 0x01#8 else 0x00#8) m.flags m.typeCode
      (framePayload m.datapointId m.subindex m.data m.trailer) := by
  have hm := (message_wf_iff m).1 h
  have hlen : BitVec.ofNat 8 (framePayload m.datapointId m.subindex m.data m.trailer).length = m.payloadLength := by
    apply BitVec.eq_of_toNat_eq
    have := m.payloadLength.isLt
    simp only [framePayload_length, BitVec.toNat_ofNat]
    omega
  rw [frameBytes, hlen]
  simp [encodeMessage, framePayload, TypeCode.bytes, BytePair.bytes]

end Sys2Proof.Machine
end

