-- ==== Sys2Proof/Laws/PerInstr.lean ====
section
/-! SUPPORT. The family of per-instruction statements `EncodesToItsRow`: the encoding of a well-formed instruction matches
the opcode table's row of its mnemonic (R41, R47). -/

namespace Sys2Proof.Laws

open Sys2Proof.Machine

/-- A step word matches its instruction's row of R41; the bytes of a frame class are a Frame, and the first row of R47 that
matches its header value is the instruction's. -/
def EncodesToItsRow.Statement (i : Instr) : Prop :=
  i.wf = true →
    match encode i with
    | .word sw => ∃ r, r ∈ wordRows ∧ r.row = i.mnemonic ∧ r.matches sw = true
    | .burst f => isFrame f = true ∧
        (frameRows.find? fun r => r.matches (headerValue f)).map TableRow.row = some i.mnemonic

theorem EncodesToItsRow.reset : EncodesToItsRow.Statement .reset := fun _ =>
  ⟨⟨.reset, 0x400#11, 0x400#11⟩, by decide, rfl, by decide⟩

theorem EncodesToItsRow.synByte (d : Byte) : EncodesToItsRow.Statement (.synByte d) := fun _ => by
  refine ⟨⟨.synByte, 0x000#11, 0x700#11⟩, by decide, rfl, ?_⟩
  revert d
  decide

theorem EncodesToItsRow.synEoi : EncodesToItsRow.Statement .synEoi := fun _ =>
  ⟨⟨.synEoi, 0x100#11, 0x700#11⟩, by decide, rfl, by decide⟩

theorem EncodesToItsRow.crcUpdate (d : Byte) : EncodesToItsRow.Statement (.crcUpdate d) := fun _ => by
  refine ⟨⟨.crcUpdate, 0x200#11, 0x700#11⟩, by decide, rfl, ?_⟩
  revert d
  decide

theorem EncodesToItsRow.crcInit : EncodesToItsRow.Statement .crcInit := fun _ =>
  ⟨⟨.crcInit, 0x300#11, 0x700#11⟩, by decide, rfl, by decide⟩

theorem EncodesToItsRow.frameReply (flags : Byte) (typeCode : TypeCode) (payload : List Byte) :
    EncodesToItsRow.Statement (.frameReply flags typeCode payload) := fun h =>
  ⟨isFrame_frameBytes _ _ _ _ (of_decide_eq_true h), frameRows_find _ rfl rfl⟩

theorem EncodesToItsRow.frameRequest (flags : Byte) (typeCode : TypeCode) (payload : List Byte) :
    EncodesToItsRow.Statement (.frameRequest flags typeCode payload) := fun h =>
  ⟨isFrame_frameBytes _ _ _ _ (of_decide_eq_true h), frameRows_find _ rfl rfl⟩

theorem EncodesToItsRow.frameOther (direction flags : Byte) (typeCode : TypeCode) (payload : List Byte) :
    EncodesToItsRow.Statement (.frameOther direction flags typeCode payload) := fun h => by
  simp only [Instr.wf, Bool.and_eq_true, otherDirection, bne_iff_ne] at h
  refine ⟨isFrame_frameBytes _ _ _ _ (of_decide_eq_true h.2), (frameRows_find _ rfl rfl).trans ?_⟩
  have h2 : byteAt (frameBytes direction flags typeCode payload) 2 = direction := rfl
  rw [h2, if_neg h.1.2, if_neg h.1.1]
  rfl

end Sys2Proof.Laws
end

