-- ==== Sys2Proof/Laws/Steps.lean ====
section
/-! SUPPORT. The invariants opened up, `SYN.BYTE` by mode, and everything one step word can do. -/

namespace Sys2Proof.Machine

open Sys2Proof

theorem inv_iff (s : State) :
    s.inv = true ↔ s.cfg.wf = true ∧ modeInv s.cfg.bufCap s.mode s.buf = true ∧ withinCap s.cfg.bufCap s.buf = true := by
  simp [State.inv, and_assoc]

theorem passStart_iff (s : State) :
    s.passStart = true ↔ s.mode = .hunt ∧ s.buf = [] ∧ s.trace = [] ∧ s.cfg.wf = true := by
  simp [State.passStart, and_assoc]

/-- A legal capacity holds every frame (R7). -/
theorem capExceeded_of_le (cfg : Config) (h : cfg.wf = true) (n : Nat) (hn : n ≤ 263) :
    capExceeded cfg.bufCap n = false := by
  unfold Config.wf at h
  cases hc : cfg.bufCap with
  | unbounded => rfl
  | bounded c =>
    rw [hc] at h
    have := of_decide_eq_true h
    simp only [capExceeded, decide_eq_false_iff_not]
    omega

theorem inv_of_passStart (s : State) (h : s.passStart = true) : s.inv = true := by
  obtain ⟨hm, hb, -, hc⟩ := (passStart_iff s).1 h
  rw [inv_iff, hm, hb]
  exact ⟨hc, rfl, by simp [withinCap, capExceeded_of_le _ hc]⟩

/-- A frame in progress is shorter than the longest frame (R17 item 2). -/
theorem framePart_length (b : List Byte) (h : framePart b = true) : b.length ≤ 262 := by
  obtain ⟨-, h⟩ := (framePart_iff b).1 h
  by_cases h5 : 5 ≤ b.length
  · have := h (b[4].toNat) (by simp [lengthByte, List.getElem?_eq_getElem (show 4 < b.length by omega)])
    have := b[4].isLt
    omega
  · omega

theorem execSynByte_hunt (d : Byte) (s : State) (h : s.mode = .hunt) : execSynByte d s = huntByte d s := by
  simp [execSynByte, h]

theorem execSynByte_frame (d : Byte) (s : State) (h : s.mode = .frame) : execSynByte d s = frameByte d s := by
  simp [execSynByte, h]

theorem execSynByte_terminal (d : Byte) (s : State) (h : s.terminal = true) : execSynByte d s = .next s.quiet := by
  obtain ⟨mode, buf, crc, cfg, input, trace⟩ := s
  cases mode
  · cases h
  · cases h
  · rfl
  · rfl

theorem execSynEoi_terminal (s : State) (h : s.terminal = true) : execSynEoi s = .next s.quiet := by
  obtain ⟨mode, buf, crc, cfg, input, trace⟩ := s
  cases mode
  · cases h
  · cases h
  · rfl
  · rfl

/-- A buffer that holds no more than a finite capacity and has no room for one byte more is full. -/
theorem full_of_capExceeded (s : State) (h : withinCap s.cfg.bufCap s.buf = true)
    (hc : capExceeded s.cfg.bufCap (s.buf.length + 1) = true) : s.cfg.bufCap = .bounded s.buf.length := by
  cases hb : s.cfg.bufCap with
  | unbounded => simp [hb, capExceeded] at hc
  | bounded n =>
    simp only [hb, withinCap, capExceeded, Bool.not_eq_true', decide_eq_false_iff_not, decide_eq_true_eq] at h hc
    have : n = s.buf.length := by omega
    rw [this]

/-- The events of the step that completes a Frame (R99). -/
theorem parseAndCheck_of_isFrame (cfg : Config) (f : List Byte) (h : isFrame f = true) :
    parseAndCheck cfg f = some (
      if (byteAt f 4).toNat < 5 then ⟨none, some (.tooShort f)⟩
      else if frameCrc f = trailerValue cfg (messageOf f) then ⟨some (.msg (messageOf f) (frameCrc f) true), none⟩
      else ⟨some (.msg (messageOf f) (frameCrc f) false), some (.crcMismatch (frameCrc f) (messageOf f).trailer)⟩) := by
  by_cases hl : (byteAt f 4).toNat < 5
  · simp [parseAndCheck, parse, h, minPayload, hl]
  · by_cases hc : frameCrc f = trailerValue cfg (messageOf f)
    · simp [parseAndCheck, parse, h, minPayload, hl, crcOk, hc]
    · simp [parseAndCheck, parse, h, minPayload, hl, crcOk, hc]

/-- The same, with the report of a Message in one form for both outcomes of the check. -/
theorem parseAndCheck_eq_checked (cfg : Config) (f : List Byte) (h : isFrame f = true) :
    parseAndCheck cfg f = some (
      if (byteAt f 4).toNat < 5 then ⟨none, some (.tooShort f)⟩
      else Slots.checked (messageOf f) (frameCrc f) (frameCrc f == trailerValue cfg (messageOf f))) := by
  rw [parseAndCheck_of_isFrame cfg f h]
  by_cases hc : frameCrc f = trailerValue cfg (messageOf f)
  · simp [Slots.checked, hc]
  · simp [Slots.checked, hc, beq_false_of_ne hc]

/-- No step word decodes to a frame class (R41). -/
theorem decodeWord_not_frame (sw : StepWord) (flags : Byte) (tc : TypeCode) (payload : List Byte) :
    decodeWord sw ≠ .frameReply flags tc payload ∧ decodeWord sw ≠ .frameRequest flags tc payload ∧
      ∀ direction, decodeWord sw ≠ .frameOther direction flags tc payload := by
  unfold decodeWord
  refine ⟨?_, ?_, fun d => ?_⟩ <;> (repeat' split) <;> simp

/-- `crc` after an instruction of the step word (R13). -/
def crcAfter : Instr → Word16 → Word16
  | .reset, _ => crcInitValue
  | .crcInit, _ => crcInitValue
  | .crcUpdate d, c => crcUpdate c d
  | .synByte _, c => c
  | .synEoi, c => c
  | .frameReply _ _ _, c => c
  | .frameRequest _ _ _, c => c
  | .frameOther _ _ _ _, c => c

/-- Everything a step word can do (R83): the instruction, and the mode, the buffer and the pair of slots after it. In a
state that meets R17 the buffer that overflows is full (`full_of_capExceeded`). -/
inductive WordMove (s : State) : Instr → Mode → List Byte → Slots → Prop where
  | reset : WordMove s .reset .hunt [] ⟨none, none⟩
  | crcInit : WordMove s .crcInit s.mode s.buf ⟨none, none⟩
  | crcUpdate (d : Byte) : WordMove s (.crcUpdate d) s.mode s.buf ⟨none, none⟩
  | byteAbsorbed (d : Byte) (h : s.terminal = true) : WordMove s (.synByte d) s.mode s.buf ⟨none, none⟩
  | eoiAbsorbed (h : s.terminal = true) : WordMove s .synEoi s.mode s.buf ⟨none, none⟩
  | eoiClean (h : s.mode = .hunt) : WordMove s .synEoi .done s.buf ⟨some (.endOfPass true), none⟩
  | eoiTruncated (h : s.mode = .frame) :
      WordMove s .synEoi .failed s.buf ⟨some (.endOfPass false), some (.incomplete s.buf)⟩
  | markerFound (d : Byte) (h : s.mode = .hunt) (before : List Byte) (hb : s.buf ++ [d] = before ++ marker) :
      WordMove s (.synByte d) .frame marker ⟨none, if before = [] then none else some (.spurious before)⟩
  | overflowed (d : Byte) (h : s.mode = .hunt) (hn : endsInMarker (s.buf ++ [d]) = false)
      (hf : capExceeded s.cfg.bufCap (s.buf.length + 1) = true) :
      WordMove s (.synByte d) .failed s.buf ⟨some (.endOfPass false), some (.overflow s.buf d)⟩
  | byteHunted (d : Byte) (h : s.mode = .hunt) (hn : endsInMarker (s.buf ++ [d]) = false)
      (hf : capExceeded s.cfg.bufCap (s.buf.length + 1) = false) :
      WordMove s (.synByte d) .hunt (s.buf ++ [d]) ⟨none, none⟩
  | byteFramed (d : Byte) (h : s.mode = .frame) (hc : frameComplete (s.buf ++ [d]) = false) :
      WordMove s (.synByte d) .frame (s.buf ++ [d]) ⟨none, none⟩
  | frameDone (d : Byte) (h : s.mode = .frame) (hf : isFrame (s.buf ++ [d]) = true) (o : Slots)
      (ho : parseAndCheck s.cfg (s.buf ++ [d]) = some o) : WordMove s (.synByte d) .hunt [] o

/-- A step word that goes on makes one of these moves and touches nothing else but `crc`. -/
theorem wordMove_of_exec (s t : State) (sw : StepWord) (h : exec (decodeWord sw) s = .next t) :
    ∃ o, WordMove s (decodeWord sw) t.mode t.buf o ∧ t.crc = crcAfter (decodeWord sw) s.crc ∧
      t.trace = s.trace ++ [o] ∧ t.cfg = s.cfg ∧ t.input = s.input := by
  cases hd : decodeWord sw with
  | reset => rw [hd] at h; cases h; exact ⟨_, .reset, rfl, rfl, rfl, rfl⟩
  | crcInit => rw [hd] at h; cases h; exact ⟨_, .crcInit, rfl, rfl, rfl, rfl⟩
  | crcUpdate d => rw [hd] at h; cases h; exact ⟨_, .crcUpdate d, rfl, rfl, rfl, rfl⟩
  | frameReply a b c => exact absurd hd (decodeWord_not_frame sw a b c).1
  | frameRequest a b c => exact absurd hd (decodeWord_not_frame sw a b c).2.1
  | frameOther d a b c => exact absurd hd ((decodeWord_not_frame sw a b c).2.2 d)
  | synEoi =>
    rw [hd] at h
    simp only [exec] at h
    by_cases ht : s.terminal = true
    · rw [execSynEoi_terminal s ht] at h
      cases h
      exact ⟨_, .eoiAbsorbed ht, rfl, rfl, rfl, rfl⟩
    · rw [execSynEoi_eq] at h
      cases hmode : s.mode with
      | hunt => rw [hmode] at h; cases h; exact ⟨_, .eoiClean hmode, rfl, rfl, rfl, rfl⟩
      | frame => rw [hmode] at h; cases h; exact ⟨_, .eoiTruncated hmode, rfl, rfl, rfl, rfl⟩
      | done => simp [State.terminal, hmode, Mode.isTerminal] at ht
      | failed => simp [State.terminal, hmode, Mode.isTerminal] at ht
  | synByte d =>
    rw [hd] at h
    simp only [exec] at h
    by_cases ht : s.terminal = true
    · rw [execSynByte_terminal d s ht] at h
      cases h
      exact ⟨_, .byteAbsorbed d ht, rfl, rfl, rfl, rfl⟩
    · cases hmode : s.mode with
      | done => simp [State.terminal, hmode, Mode.isTerminal] at ht
      | failed => simp [State.terminal, hmode, Mode.isTerminal] at ht
      | hunt =>
        rw [execSynByte_hunt d s hmode, huntByte_eq] at h
        split at h
        · rename_i he
          cases h
          obtain ⟨before, hb⟩ := (endsInMarker_iff _).1 he
          have hdrop : s.buf.dropLast = before := by
            have : s.buf = before ++ [marker0] := by
              have := congrArg List.dropLast hb
              simpa [marker, List.dropLast_append_of_ne_nil] using this
            rw [this]
            simp
          exact ⟨_, .markerFound d hmode before hb, rfl, by rw [hdrop], rfl, rfl⟩
        · rename_i hn
          split at h
          · rename_i hc
            cases h
            exact ⟨_, .overflowed d hmode (by simpa using hn) hc, rfl, rfl, rfl, rfl⟩
          · rename_i hc
            cases h
            refine ⟨_, ?_, rfl, rfl, rfl, rfl⟩
            rw [hmode]
            exact .byteHunted d hmode (by simpa using hn) (by simpa using hc)
      | frame =>
        rw [execSynByte_frame d s hmode, frameByte_eq] at h
        split at h
        · cases ho : parseAndCheck s.cfg (s.buf ++ [d]) with
          | none => rw [ho] at h; cases h
          | some o =>
            rw [ho] at h
            cases h
            have hf : isFrame (s.buf ++ [d]) = true := by rw [← parseAndCheck_isSome s.cfg, ho]; rfl
            exact ⟨o, .frameDone d hmode hf o ho, rfl, rfl, rfl, rfl⟩
        · rename_i hc
          cases h
          refine ⟨_, ?_, rfl, rfl, rfl, rfl⟩
          rw [hmode]
          exact .byteFramed d hmode (by simpa using hc)

/-- In a state that meets R17 a `SYN.BYTE` goes on, and leaves `crc`, the configuration and the inputs alone (R13). -/
theorem execSynByte_of_inv (d : Byte) (s : State) (h : s.inv = true) :
    ∃ t o, execSynByte d s = .next t ∧ t.crc = s.crc ∧ t.cfg = s.cfg ∧ t.input = s.input ∧ t.trace = s.trace ++ [o] := by
  rcases execSynByte_cases d s with ⟨m, b, o, e⟩ | ⟨hm, hc, hf, -⟩
  · exact ⟨_, o, e, rfl, rfl, rfl, rfl⟩
  · have hi := ((inv_iff s).1 h).2.1
    rw [hm] at hi
    rw [isFrame_of_framePart _ _ hi hc] at hf
    cases hf

/-- What one new pair of slots adds to the primary channel. -/
theorem primary_of_trace (s t : State) (o : Slots) (h : t.trace = s.trace ++ [o]) :
    t.primary = s.primary ++ o.prim.toList := by
  rw [State.primary, State.primary, h]
  cases hp : o.prim <;> simp [hp]

/-- What one new pair of slots adds to the number of frames. -/
theorem framesOut_of_trace (s t : State) (o : Slots) (h : t.trace = s.trace ++ [o]) :
    t.framesOut = s.framesOut + if o.isFrameReport then 1 else 0 := by
  rw [State.framesOut, State.framesOut, h]
  simp [List.countP_cons]

/-- No `SYN.BYTE` writes `crc` (R13). -/
theorem execSynByte_crc (d : Byte) (s t : State) (h : execSynByte d s = .next t) : t.crc = s.crc := by
  rcases execSynByte_cases d s with ⟨m, b, o, e⟩ | ⟨-, -, -, e⟩
  · rw [e] at h; cases h; rfl
  · rw [e] at h; cases h

/-- No delivery of bytes writes `crc` (R13). -/
theorem stream_crc (bs : List Byte) (s t : State) (h : stream bs s = .next t) : t.crc = s.crc := by
  induction bs generalizing s with
  | nil => cases h; rfl
  | cons b bs ih =>
    rw [stream, andThen_eq_next] at h
    obtain ⟨u, h1, h2⟩ := h
    rw [ih u h2, execSynByte_crc b s u h1]

/-- Bytes that do not complete the frame in progress are stored one by one (R76). -/
theorem stream_of_incomplete (bs : List Byte) (s : State) (hm : s.mode = .frame)
    (h : ∀ k, k < bs.length → frameComplete (s.buf ++ bs.take (k + 1)) = false) :
    stream bs s = .next { s with
      buf := s.buf ++ bs, trace := s.trace ++ List.replicate bs.length ⟨none, none⟩ } := by
  induction bs generalizing s with
  | nil => simp [stream]
  | cons x xs ih =>
    have h0 := h 0 (by simp)
    simp only [Nat.zero_add, List.take_succ_cons, List.take_zero] at h0
    rw [stream, execSynByte_frame x s hm, frameByte_eq, h0]
    simp only [Bool.false_eq_true, if_false, andThen_next]
    refine (ih _ (by exact hm) ?_).trans ?_
    · intro k hk
      simpa using h (k + 1) (by simpa using hk)
    · simp [List.replicate_succ]

/-- No proper initial part of a frame is complete (R46). -/
theorem frameComplete_of_append_ne_nil (direction flags : Byte) (typeCode : TypeCode) (payload : List Byte)
    (h : payload.length ≤ 255) (p q : List Byte) (e : p ++ q = frameBytes direction flags typeCode payload)
    (hq : q ≠ []) : frameComplete p = false := by
  rw [← Bool.not_eq_true, frameComplete_iff]
  rintro ⟨l, h1, h2⟩
  have h4 : (frameBytes direction flags typeCode payload)[4]? = some l := by
    rw [← e, List.getElem?_append_left (List.getElem?_eq_some_iff.1 h1).1]
    exact h1
  simp only [frameBytes, List.cons_append, List.getElem?_cons_succ, List.getElem?_cons_zero, Option.some.injEq] at h4
  have hlen : p.length + q.length = 8 + payload.length := by simpa using congrArg List.length e
  have hq' : q.length ≠ 0 := by simpa using hq
  subst l
  simp only [BitVec.toNat_ofNat] at h2
  omega

end Sys2Proof.Machine
end

