-- ==== Sys2Proof/Laws/Runs.lean ====
section
/-! SUPPORT. Runs of step words: the machine that takes them from its inputs, and the plain fold of their meanings. -/

namespace Sys2Proof.Machine

open Sys2Proof

/-- The meanings of a program's step words one after the other, with the inputs left out. -/
def runWords : State → List StepWord → Result
  | s, [] => .next s
  | s, sw :: program => Result.andThen (exec (decodeWord sw) s) fun t => runWords t program

/-- The inputs a state holds have no part in what a step word does (R27). -/
theorem exec_takeInput (sw : StepWord) (s : State) (rest : List Input) :
    exec (decodeWord sw) (s.takeInput rest) =
      Result.andThen (exec (decodeWord sw) s) fun t => .next (t.takeInput rest) := by
  cases hd : decodeWord sw with
  | reset => rfl
  | crcInit => rfl
  | crcUpdate d => rfl
  | frameReply a b c => exact absurd hd (decodeWord_not_frame sw a b c).1
  | frameRequest a b c => exact absurd hd (decodeWord_not_frame sw a b c).2.1
  | frameOther d a b c => exact absurd hd ((decodeWord_not_frame sw a b c).2.2 d)
  | synEoi =>
    simp only [exec]
    rw [execSynEoi_eq, execSynEoi_eq]
    rfl
  | synByte d =>
    obtain ⟨mode, buf, crc, cfg, input, trace⟩ := s
    cases mode
    · show huntByte d _ = Result.andThen (huntByte d _) _
      rw [huntByte_eq, huntByte_eq]
      simp only [takeInput_buf, takeInput_cfg]
      by_cases h1 : endsInMarker (buf ++ [d]) = true <;>
        by_cases h2 : capExceeded cfg.bufCap (buf.length + 1) = true <;> simp only [h1, h2, if_true] <;> rfl
    · show frameByte d _ = Result.andThen (frameByte d _) _
      rw [frameByte_eq, frameByte_eq]
      simp only [takeInput_buf, takeInput_cfg]
      by_cases h1 : frameComplete (buf ++ [d]) = true <;>
        rcases h2 : parseAndCheck cfg (buf ++ [d]) with _ | o <;> simp only [h1, if_true] <;> rfl
    · rfl
    · rfl

theorem exec_word_input (sw : StepWord) (s t : State) (h : exec (decodeWord sw) s = .next t) : t.input = s.input := by
  have := exec_takeInput sw s s.input
  have same : s.takeInput s.input = s := rfl
  rw [same, h] at this
  injection this with this
  rw [this]
  rfl

theorem runWords_input (program : List StepWord) (s t : State) (h : runWords s program = .next t) :
    t.input = s.input := by
  induction program generalizing s with
  | nil => cases h; rfl
  | cons sw program ih =>
    rw [runWords, andThen_eq_next] at h
    obtain ⟨u, h1, h2⟩ := h
    rw [ih u h2, exec_word_input sw s u h1]

/-- A run adds one pair of slots for each step word and keeps those it had (R106, R144). -/
theorem runWords_trace (program : List StepWord) (s t : State) (h : runWords s program = .next t) :
    ∃ added, t.trace = s.trace ++ added ∧ added.length = program.length ∧ t.cfg = s.cfg := by
  induction program generalizing s with
  | nil => cases h; exact ⟨[], by simp, rfl, rfl⟩
  | cons sw program ih =>
    rw [runWords, andThen_eq_next] at h
    obtain ⟨u, h1, h2⟩ := h
    obtain ⟨o, -, -, htr, hc, -⟩ := wordMove_of_exec s u sw h1
    obtain ⟨added, ht, hl, hcfg⟩ := ih u h2
    exact ⟨o :: added, by simp [ht, htr], by simp [hl], hcfg.trans hc⟩

/-- The machine's run over a program that stands before other inputs. -/
theorem run_takeInput (program : List StepWord) (s : State) (rest : List Input) :
    Host.Core.run core program.length (s.takeInput (asInputs program ++ rest)) =
      Result.andThen (runWords s program) fun t => .next (t.takeInput rest) := by
  induction program generalizing s with
  | nil => rfl
  | cons sw program ih =>
    have hs : core.step (s.takeInput (asInputs (sw :: program) ++ rest)) =
        exec (decodeWord sw) (s.takeInput (asInputs program ++ rest)) := rfl
    simp only [List.length_cons, Host.Core.run, hs, runWords]
    rw [exec_takeInput]
    cases exec (decodeWord sw) s with
    | next t => exact ih t
    | fault e => rfl
    | refused e => rfl

/-- A run of step words is the fold of their meanings (R106). -/
theorem runProgram_eq (s : State) (program : List StepWord) : runProgram s program = runWords s program := by
  have h := run_takeInput program s s.input
  have hload : s.takeInput (asInputs program ++ s.input) = s.load program := rfl
  rw [hload] at h
  show Host.Core.run core program.length (s.load program) = _
  rw [h]
  cases hr : runWords s program with
  | next t =>
    have := runWords_input program s t hr
    simp only [andThen_next, ← this]
    rfl
  | fault e => rfl
  | refused e => rfl

theorem decodeWord_synByteWord (d : Byte) : decodeWord (synByteWord d) = .synByte d := by
  simp [decodeWord, synByteWord, fields_stepWord]

theorem decodeWord_crcUpdateWord (d : Byte) : decodeWord (crcUpdateWord d) = .crcUpdate d := by
  simp [decodeWord, crcUpdateWord, fields_stepWord]

/-- The fold over a `STREAM` program is the delivery of its bytes (R57). -/
theorem runWords_streamProgram (bytes : List Byte) (s : State) : runWords s (streamProgram bytes) = stream bytes s := by
  induction bytes generalizing s with
  | nil => rfl
  | cons b bytes ih =>
    simp only [streamProgram, List.map_cons, runWords, stream, decodeWord_synByteWord, exec]
    congr 1
    funext t
    exact ih t

/-- An invariant of the step is an invariant of every run. -/
theorem run_induction (P : State → Prop) (hstep : ∀ s t, P s → step s = .next t → P t) (n : Nat) (s t : State)
    (hs : P s) (h : Host.Core.run core n s = .next t) : P t := by
  induction n generalizing s with
  | zero => cases h; exact hs
  | succ n ih =>
    simp only [Host.Core.run] at h
    cases hc : core.step s with
    | next u => rw [hc] at h; exact ih u (hstep s u hs hc) h
    | fault e => rw [hc] at h; cases h
    | refused e => rw [hc] at h; cases h

end Sys2Proof.Machine
end

