-- ==== Sys2Proof/Tests/Slice0.lean ====
section
/-! SUPPORT. Tests. Expected values are those of spec/95_test_vectors.md and of the rules' worked examples (the vector is
named at each test); encodings are written out bit by bit from spec/30_encoding.md. The last sections show, for every
statement with hypotheses, a state and operands that meet them. -/

namespace Sys2Proof.Tests

open Sys2Proof Sys2Proof.Machine

/-- A state with a mode and a buffer, otherwise as after reset. -/
def at' (mode : Mode) (buf : List Byte) : State := { State.reset with mode := mode, buf := buf }

/-- A state whose buffer holds at most 263 bytes. -/
def capped (mode : Mode) (buf : List Byte) : State :=
  { at' mode buf with cfg := { Config.default with bufCap := .bounded 263 } }

/-- A state under `HI_FIRST`. -/
def hiFirst (s : State) : State := { s with cfg := { s.cfg with trailerOrder := .hiFirst } }

/-- The three elements and the last pair of slots of a result. -/
def view (r : Result) : Option (Mode × List Byte × Word16 × Option Slots) :=
  r.state.map fun s => (s.mode, s.buf, s.crc, s.trace.getLast?)

/-- The events of a result, silent steps left out. -/
def events (r : Result) : Option (List Prim × List Diag) := r.state.map fun s => (s.primary, s.diagnostic)

theorem next_of_state {r : Result} {s : State} (h : r.state = some s) : r = .next s := by
  cases r <;> simp_all [Result.state]

def silent : Slots := ⟨none, none⟩

def tc0 : TypeCode := ⟨0xAA, 0xBB, 0xCC⟩

def id0 : BytePair := ⟨0x30, 0x23⟩

/-- The frame of DOC §8 (vectors V7, F1) without its last byte. -/
def f1Part : List Byte := [0x01, 0x00, 0x00, 0x00, 0x05, 0xAA, 0xBB, 0xCC, 0x30, 0x23, 0x00, 0x01]

/-- The Message of F1. -/
def f1Message : Message := ⟨false, 0x00, 0x05, tc0, id0, 0x00, [], ⟨0x01, 0x02⟩⟩

/-- The frame of F3. -/
def f3 : List Byte := [0x01, 0x00, 0x01, 0x00, 0x07, 0xAA, 0xBB, 0xCC, 0x30, 0x23, 0x00, 0x26, 0x02, 0x64, 0xC9]

/-- The Message of F3. -/
def f3Message : Message := ⟨true, 0x00, 0x07, tc0, id0, 0x00, [0x26, 0x02], ⟨0x64, 0xC9⟩⟩

/-- The frame of F6. -/
def f6 : List Byte := [0x01, 0x00, 0x02, 0x5A, 0x05, 0x00, 0x00, 0x00, 0xFF, 0xFE, 0x80, 0xB2, 0x23]

/-- The Message of F6. -/
def f6Message : Message := ⟨false, 0x5A, 0x05, ⟨0x00, 0x00, 0x00⟩, ⟨0xFF, 0xFE⟩, 0x80, [], ⟨0xB2, 0x23⟩⟩

/-- The frame of F7, `L = 4`. -/
def f7 : List Byte := [0x01, 0x00, 0x01, 0x80, 0x04, 0x11, 0x22, 0x33, 0xDE, 0xAD, 0xBE, 0xEF]

/-! ### WellFormed: an ill-formed term for each check -/

theorem test_wf_refuses_long_reply : (Instr.frameReply 0 tc0 (List.replicate 256 0)).wf = false := by decide +kernel

theorem test_wf_refuses_long_request : (Instr.frameRequest 0 tc0 (List.replicate 256 0)).wf = false := by decide +kernel

theorem test_wf_refuses_long_other : (Instr.frameOther 2 0 tc0 (List.replicate 256 0)).wf = false := by decide +kernel

theorem test_wf_refuses_other_with_request_direction : (Instr.frameOther 0x00 0 tc0 []).wf = false := by decide

theorem test_wf_refuses_other_with_reply_direction : (Instr.frameOther 0x01 0 tc0 []).wf = false := by decide

theorem test_config_refuses_small_capacity : (Config.mk .loFirst (.bounded 262)).wf = false := by decide

theorem test_message_refuses_wrong_length : { f3Message with payloadLength := 0x06 }.wf = false := by decide

/-! ### Decode: a word for each constructor, from R40, R41, R45 and R47 -/

/-- rst 1, op 00, data 0000_0000. -/
theorem test_decode_reset : decode (.word 0b1_00_00000000#11) = .ok .reset := by decide

/-- rst 0, op 00, data 1010_1011 (word `0AB` of S3). -/
theorem test_decode_synByte : decode (.word 0b0_00_10101011#11) = .ok (.synByte 0xAB#8) := by decide

/-- rst 0, op 01, data ignored (word `1FF` of S10). -/
theorem test_decode_synEoi : decode (.word 0b0_01_11111111#11) = .ok .synEoi := by decide

/-- rst 0, op 10, data 0011_0001 (word `231` of K9). -/
theorem test_decode_crcUpdate : decode (.word 0b0_10_00110001#11) = .ok (.crcUpdate 0x31#8) := by decide

/-- rst 0, op 11, data ignored (word `3AB` of K9). -/
theorem test_decode_crcInit : decode (.word 0b0_11_10101011#11) = .ok .crcInit := by decide

/-- `7FF` is `RESET`, whatever the other ten bits (R42, R43; X1). -/
theorem test_decode_reset_wins : decode (.word 0b1_11_11111111#11) = .ok .reset := by decide

/-- The frame of F3, direction `01`. -/
theorem test_decode_frameReply :
    decode (.burst f3) = .ok (.frameReply 0x00 tc0 [0x30, 0x23, 0x00, 0x26, 0x02, 0x64, 0xC9]) := by decide

/-- The frame of F1, direction `00`. -/
theorem test_decode_frameRequest :
    decode (.burst (f1Part ++ [0x02])) = .ok (.frameRequest 0x00 tc0 [0x30, 0x23, 0x00, 0x01, 0x02]) := by decide

/-- The frame of F6, direction `02`. -/
theorem test_decode_frameOther :
    decode (.burst f6) = .ok (.frameOther 0x02 0x5A ⟨0, 0, 0⟩ [0xFF, 0xFE, 0x80, 0xB2, 0x23]) := by decide

/-- One byte short of its declared length: not a Frame (R45). -/
theorem test_decode_refuses_truncated_frame : decode (.burst f1Part) = .error .notAFrame := by decide

theorem test_encode_synEoi : encode .synEoi = .word 0b0_01_00000000#11 := by decide

theorem test_encode_frameOther :
    encode (.frameOther 0x02 0x5A ⟨0, 0, 0⟩ [0xFF, 0xFE, 0x80, 0xB2, 0x23]) = .burst f6 := by decide

/-! ### The host's table words, one for each row -/

theorem test_table_reset : decodeTableWord 16 0x400 = some .reset := by decide

theorem test_table_synByte : decodeTableWord 16 0x001 = some (.synByte 0x01) := by decide

theorem test_table_synEoi : decodeTableWord 16 0x100 = some .synEoi := by decide

theorem test_table_crcUpdate : decodeTableWord 16 0x2FF = some (.crcUpdate 0xFF) := by decide

theorem test_table_crcInit : decodeTableWord 16 0x300 = some .crcInit := by decide

/-- R49: the first byte to arrive is the most significant. -/
theorem test_table_frameReply : decodeTableWord 64 0x0100018001AABBCC = some (.frameReply 0x80 tc0 [0x00]) := by decide

theorem test_table_frameRequest : decodeTableWord 64 0x0100000000AABBCC = some (.frameRequest 0x00 tc0 []) := by decide

theorem test_table_frameOther : decodeTableWord 64 0x0100FF0000AABBCC = some (.frameOther 0xFF 0x00 tc0 []) := by decide

theorem test_table_refuses_other_marker : decodeTableWord 64 0x0000010000AABBCC = none := by decide

/-- The word stored by the host is the next thing to run. -/
theorem test_withFetchWord_runs_the_word :
    view (step (State.reset.withFetchWord 16 0x231)) = some (.hunt, [], 0x947E, some silent) := by decide

theorem test_withFetchWord_runs_the_frame :
    view (step (State.reset.withFetchWord 64 0x0100010000AABBCC)) =
      some (.hunt, [], 0xFFFF, some ⟨none, some (.tooShort [0x01, 0x00, 0x01, 0x00, 0x00, 0xAA, 0xBB, 0xCC])⟩) := by
  decide

/-! ### The checksum engine -/

/-- K3. -/
theorem test_crcBit_table :
    [0x0000, 0x0001, 0x0002, 0x0003, 0x8000, 0xFFFF, 0xA001, 0x4002, 0x4003].map crcBit =
      [0x0000, 0xA001, 0x0001, 0xA000, 0x4000, 0xDFFE, 0xF001, 0x2001, 0x8000] := by decide

/-- K4. -/
theorem test_crcUpdate_table :
    crcUpdate 0x0000 0x01 = 0xC0C1 ∧ crcUpdate 0x0001 0x01 = 0x0000 ∧ crcUpdate 0xFFFF 0xFF = 0x00FF ∧
      crcUpdate 0x1234 0x34 = 0x0012 ∧ crcUpdate 0x8000 0x00 = 0x0080 ∧ crcUpdate 0xA001 0x00 = 0xC061 := by decide

/-- K5. -/
theorem test_checksum16_table :
    checksum16 [0x00, 0x00] = 0xB001 ∧ checksum16 [0xFF, 0xFF] = 0x0000 ∧ checksum16 [0x80] = 0xE0BE ∧
      checksum16 [0x41, 0x41, 0x41] = 0xB4D1 := by decide +kernel

/-- K8, its first row and its last entry, and K4's row `A001`, `00` by the table. -/
theorem test_crcTable :
    ([0x00, 0x01, 0x02, 0x03, 0x04, 0x05, 0x06, 0x07, 0xFF] : List Byte).map crcTable =
        [0x0000, 0xC0C1, 0xC181, 0x0140, 0xC301, 0x03C0, 0x0280, 0xC241, 0x4040] ∧
      crcUpdateByTable 0xA001 0x00 = 0xC061 := by decide +kernel

/-- K7. -/
theorem test_frameCrc_table : frameCrc (f1Part ++ [0x02]) = 0x8E85 ∧ frameCrc f3 = 0xC964 := by decide +kernel

/-- K9 after step 1. -/
theorem test_crcUpdate_on_the_register : view (exec (.crcUpdate 0xFF) State.reset) = some (.hunt, [], 0x00FF, some silent) := by
  decide

/-- X4: in `FAILED`. -/
theorem test_crcUpdate_in_failed :
    view (exec (.crcUpdate 0x00) (at' .failed marker)) = some (.failed, [0x01, 0x00], 0x40BF, some silent) := by decide

/-- K9 after step 2, and X3 in `DONE`. -/
theorem test_crcInit :
    view (exec .crcInit { at' .done [] with crc := 0x947E }) = some (.done, [], 0xFFFF, some silent) := by decide

/-! ### Control -/

/-- X1, step 6: mid-frame and silent. -/
theorem test_reset_in_frame :
    view (exec .reset { at' .frame [0x01, 0x00, 0x01] with crc := 0x947E }) = some (.hunt, [], 0xFFFF, some silent) := by
  decide

/-- R105 on a failed pass. -/
theorem test_reset_in_failed : view (exec .reset (at' .failed marker)) = some (.hunt, [], 0xFFFF, some silent) := by decide

/-! ### The synchronizer -/

/-- P2, step 4. -/
theorem test_synByte_reports_spurious :
    view (exec (.synByte 0x00) (at' .hunt [0xFF, 0xFF, 0x01])) =
      some (.frame, [0x01, 0x00], 0xFFFF, some ⟨none, some (.spurious [0xFF, 0xFF])⟩) := by decide

/-- P1, step 13, and F1. -/
theorem test_synByte_completes_frame :
    view (exec (.synByte 0x02) (at' .frame f1Part)) =
      some (.hunt, [], 0xFFFF, some ⟨some (.msg f1Message 0x8E85 false), some (.crcMismatch 0x8E85 ⟨0x01, 0x02⟩)⟩) := by
  decide +kernel

/-- S1. -/
theorem test_synEoi_ends_cleanly :
    view (exec .synEoi State.reset) = some (.done, [], 0xFFFF, some ⟨some (.endOfPass true), none⟩) := by decide

/-- P4, step 8. -/
theorem test_synEoi_in_frame :
    view (exec .synEoi (at' .frame [0x01, 0x00, 0x01, 0x00, 0x09, 0xAA])) =
      some (.failed, [0x01, 0x00, 0x01, 0x00, 0x09, 0xAA], 0xFFFF,
        some ⟨some (.endOfPass false), some (.incomplete [0x01, 0x00, 0x01, 0x00, 0x09, 0xAA])⟩) := by decide

/-! ### The parser -/

/-- F2 and F3. -/
theorem test_parse_good_frames :
    parseAndCheck Config.default [0x01, 0x00, 0x00, 0x00, 0x05, 0xAA, 0xBB, 0xCC, 0x30, 0x23, 0x00, 0x85, 0x8E] =
        some ⟨some (.msg { f1Message with trailer := ⟨0x85, 0x8E⟩ } 0x8E85 true), none⟩ ∧
      parseAndCheck Config.default f3 = some ⟨some (.msg f3Message 0xC964 true), none⟩ := by decide +kernel

/-- F4. -/
theorem test_parse_hi_first :
    parseAndCheck ⟨.hiFirst, .unbounded⟩ f3 =
      some ⟨some (.msg f3Message 0xC964 false), some (.crcMismatch 0xC964 ⟨0x64, 0xC9⟩)⟩ := by decide +kernel

/-- F6 and F7. -/
theorem test_parse_other_direction_and_short :
    parseAndCheck Config.default f6 = some ⟨some (.msg f6Message 0x23B2 true), none⟩ ∧
      parseAndCheck Config.default f7 = some ⟨none, some (.tooShort f7)⟩ := by decide +kernel

/-- The `encode` examples beside F9. -/
theorem test_encodeMessage :
    encodeMessage f3Message = f3 ∧ encodeMessage f6Message = f6.set 2 0x00 := by decide

/-- R94's examples. -/
theorem test_idString :
    idString f1Message = ['3', '0', '2', '3'] ∧ idString f6Message = ['F', 'F', 'F', 'E'] := by decide

/-! ### The frame classes -/

/-- P8, the reply: F3. -/
theorem test_frameReply :
    events (exec (.frameReply 0x00 tc0 [0x30, 0x23, 0x00, 0x26, 0x02, 0x64, 0xC9]) State.reset) =
      some ([.msg f3Message 0xC964 true], []) := by decide +kernel

/-- V7, V8: the request of DOC §8 behind two spurious bytes. -/
theorem test_frameRequest :
    events (exec (.frameRequest 0x00 tc0 [0x30, 0x23, 0x00, 0x01, 0x02]) (at' .hunt [0xFF, 0xFF])) =
      some ([.msg f1Message 0x8E85 false], [.spurious [0xFF, 0xFF], .crcMismatch 0x8E85 ⟨0x01, 0x02⟩]) := by decide +kernel

/-- F6. -/
theorem test_frameOther :
    events (exec (.frameOther 0x02 0x5A ⟨0, 0, 0⟩ [0xFF, 0xFE, 0x80, 0xB2, 0x23]) State.reset) =
      some ([.msg f6Message 0x23B2 true], []) := by decide +kernel

/-- P5: a frame that arrives inside a false one is eaten (R138). -/
theorem test_frameReply_inside_a_false_frame :
    view (exec (.frameReply 0x00 tc0 [0x30, 0x23, 0x00, 0x88, 0x1E]) (at' .frame [0x01, 0x00, 0x02])) =
      some (.hunt, [0xAA, 0xBB, 0xCC, 0x30, 0x23, 0x00, 0x88, 0x1E], 0xFFFF, some silent) := by decide

/-! ### Codes and views -/

/-- R54, R55, R113: the kind codes of a step. -/
theorem test_codes :
    Slots.codes silent = (0, 0) ∧ Slots.codes ⟨some (.msg f1Message 0 true), none⟩ = (1, 0) ∧
      Slots.codes ⟨some (.endOfPass false), some (.overflow [] 0)⟩ = (2, 5) ∧
      [Diag.spurious [], .tooShort [], .crcMismatch 0 id0, .incomplete []].map Diag.code = [1, 2, 3, 4] := by decide

/-- R14, P4 after step 6: the length byte `09` is known and 12 more bytes are needed. -/
theorem test_phase :
    (at' .frame [0x01, 0x00, 0x01, 0x00, 0x09]).phase = some .body ∧
      (at' .frame [0x01, 0x00, 0x01, 0x00, 0x09]).rem = some 12 ∧ (at' .frame marker).phase = some .dir := by decide

/-- R15. -/
theorem test_conditions :
    (at' .hunt [0xAB, 0x01]).halfMarker = true ∧ (at' .done [0xAB, 0x01]).halfMarker = false ∧
      (at' .frame marker).inFrame = true ∧ (at' .failed []).terminal = true := by decide

/-! ### Witnesses: the hypotheses of the statements can be met -/

theorem witness_resetForgetsThePass :
    (at' .done []).terminal = true ∧ Instr.synEoi ≠ .reset ∧
      exec .synEoi (at' .done []) = .next { at' .done [] with trace := [silent] } ∧
      (at' .failed marker).terminal = true ∧ Instr.synByte 0 ≠ .reset ∧
      exec (.synByte 0) (at' .failed marker) = .next { at' .failed marker with trace := [silent] } :=
  ⟨rfl, by decide, rfl, rfl, by decide, rfl⟩

theorem witness_waitingChangesNothing : State.reset.input = [] := rfl

/-- At both ends of the range for which R16 gives nine bits, and beyond it. -/
theorem witness_statusViewMirrorsTheState :
    Config.default.bufCap = .unbounded ∧ 263 ≤ 263 ∧ stBufLenWidth ⟨.loFirst, .bounded 263⟩ = some 9 ∧
      263 ≤ 511 ∧ stBufLenWidth ⟨.loFirst, .bounded 511⟩ = some 9 ∧
      263 ≤ 512 ∧ stBufLenWidth ⟨.loFirst, .bounded 512⟩ = some 10 := by decide

theorem witness_decodeUndoesEncode :
    Instr.reset.wf = true ∧ (Instr.synByte 0xFF).wf = true ∧ Instr.synEoi.wf = true ∧ (Instr.crcUpdate 0).wf = true ∧
      Instr.crcInit.wf = true ∧ (Instr.frameReply 0 tc0 []).wf = true ∧
      (Instr.frameRequest 0 tc0 (List.replicate 255 0)).wf = true ∧
      (Instr.frameOther 0x02 0 tc0 []).wf = true ∧ (Instr.frameOther 0xFF 0 tc0 (List.replicate 255 0)).wf = true := by
  decide +kernel

/-- The shortest Frame, the longest, and bytes that are none. -/
theorem witness_encodeUndoesDecodeOnFrames :
    isFrame (frameBytes 0x00 0 tc0 []) = true ∧ isFrame (frameBytes 0xFF 0 tc0 (List.replicate 255 0)) = true ∧
      isFrame [] = false ∧ { State.reset with input := [.burst []] }.input = [.burst []] := by decide +kernel

theorem witness_frameClassIsTheFirstMatchingRow :
    isFrame (frameBytes 0x00 0 tc0 []) = true ∧ isFrame (frameBytes 0x01 0 tc0 []) = true ∧
      isFrame (frameBytes 0x02 0 tc0 []) = true ∧ isFrame (frameBytes 0xFF 0 tc0 []) = true := by decide +kernel

theorem witness_stepRunsTheDecodedInstruction :
    { State.reset with input := [.word 0x231] }.input = [.word 0x231] ∧ decode (.word 0x231) = .ok (.crcUpdate 0x31) ∧
      decode (.burst f3) = .ok (.frameReply 0x00 tc0 [0x30, 0x23, 0x00, 0x26, 0x02, 0x64, 0xC9]) := by decide

theorem witness_crcBitShiftsAndFeedsBack : (0xFFFF : Word16).getLsbD 0 = true ∧ (0x8000 : Word16).getLsbD 0 = false := by
  decide

/-- P7: checksum commands interleaved with stream bytes and an end-of-input, after either opening. -/
theorem witness_registerComputesTheChecksum :
    State.reset.inv = true ∧ decodeWord 0x300 = .crcInit ∧ decodeWord 0x7FF = .reset ∧
      (∀ sw ∈ ([0x231, 0x001, 0x000, 0x232, 0x100, 0x239] : List StepWord),
        decodeWord sw ≠ .crcInit ∧ decodeWord sw ≠ .reset) :=
  ⟨by decide, by simp [decodeWord, fieldRst, fieldOp]⟩

/-- At the shortest frame that R67 covers. -/
theorem witness_frameChecksumCoverage :
    isFrame (frameBytes 0x01 0 tc0 [0x11, 0x22]) = true ∧ 2 ≤ (byteAt (frameBytes 0x01 0 tc0 [0x11, 0x22]) 4).toNat := by
  decide

/-- A marker with nothing before it, one in a full buffer (S13), a byte stored without a limit, the last byte that fits,
and the first that does not (S12). -/
theorem witness_huntByteScansForTheMarker :
    (at' .hunt [0x01]).buf ++ [0x00] = [] ++ [0x01#8, 0x00#8] ∧
      (capped .hunt (List.replicate 262 0xFF ++ [0x01])).buf ++ [0x00] = List.replicate 262 0xFF ++ [0x01#8, 0x00#8] ∧
      endsInMarker ((at' .hunt [0x00]).buf ++ [0x01]) = false ∧ (at' .hunt [0x00]).cfg.bufCap = .unbounded ∧
      (capped .hunt (List.replicate 262 0xFF)).buf.length + 1 ≤ 263 ∧
      263 < (capped .hunt (List.replicate 263 0xFF)).buf.length + 1 := by decide +kernel

/-- A byte that is not `00` completes no marker, whatever the buffer (S12). -/
theorem witness_huntByte_no_marker (buf before : List Byte) : buf ++ [0xFF] ≠ before ++ [0x01#8, 0x00#8] := fun h => by
  have := congrArg List.getLast? h
  simp at this

/-- Before the length byte is known, and one byte before the frame is complete. -/
theorem witness_frameByteIsStored :
    (∀ l, ((at' .frame marker).buf ++ [0x02])[4]? = some l → ((at' .frame marker).buf ++ [0x02]).length ≠ 8 + l.toNat) ∧
      ∀ l, ((at' .frame (f1Part.take 11)).buf ++ [0x01])[4]? = some l →
        ((at' .frame (f1Part.take 11)).buf ++ [0x01]).length ≠ 8 + l.toNat :=
  ⟨by simp [at', marker], by simp [at', f1Part]⟩

/-- F7 (`L = 4`), F2 (`L = 5`, good) and F1 (`L = 5`, bad). -/
theorem witness_completedFrameIsReported :
    isFrame (f7.take 11 ++ [0xEF]) = true ∧ (byteAt f7 4).toNat < 5 ∧
      isFrame (f1Part ++ [0x02]) = true ∧ 5 ≤ (byteAt f1Part 4).toNat ∧
      frameCrc (f1Part ++ [0x02]) ≠ trailerValue Config.default (messageOf (f1Part ++ [0x02])) ∧
      isFrame (f1Part.take 11 ++ [0x85, 0x8E]) = true ∧
      frameCrc (f1Part.take 11 ++ [0x85, 0x8E]) =
        trailerValue Config.default (messageOf (f1Part.take 11 ++ [0x85, 0x8E])) := by decide +kernel

/-- A completion in a state that meets R17, and one in a state that does not. -/
theorem witness_completedSequencesAreFrames :
    (at' .frame f1Part).inv = true ∧ ((at' .frame f1Part).buf ++ [0x02])[4]? = some 0x05 ∧
      ((at' .frame f1Part).buf ++ [0x02]).length = 8 + (0x05 : Byte).toNat ∧
      ((at' .frame (List.replicate 7 0x00)).buf ++ [0x00])[4]? = some 0x00 ∧
      ((at' .frame (List.replicate 7 0x00)).buf ++ [0x00]).length = 8 + (0x00 : Byte).toNat ∧
      isFrame ((at' .frame (List.replicate 7 0x00)).buf ++ [0x00]) = false := by decide

/-- `EndOfInputAtAFrameBoundary`, `EndOfInputInsideAFrame` and `TerminalModesAbsorb`. -/
theorem witness_modes :
    (at' .hunt [0xAB, 0x01]).mode = .hunt ∧ (at' .frame marker).mode = .frame ∧ (at' .done []).mode = .done ∧
      (at' .failed marker).mode = .failed := ⟨rfl, rfl, rfl, rfl⟩

/-- Each case of R83: the marker completes, a byte below and at a full buffer, a byte that completes a frame and one
that does not, and both terminal modes. -/
theorem witness_modeTransitionsAreTheTables :
    (at' .hunt [0x01]).inv = true ∧ (at' .hunt [0x01]).buf.getLast? = some 0x01#8 ∧
      (capped .hunt (List.replicate 262 0xFF)).inv = true ∧
      (capped .hunt (List.replicate 262 0xFF)).cfg.bufCap ≠
        .bounded (capped .hunt (List.replicate 262 0xFF)).buf.length ∧
      (capped .hunt (List.replicate 263 0xFF)).inv = true ∧
      (capped .hunt (List.replicate 263 0xFF)).cfg.bufCap =
        .bounded (capped .hunt (List.replicate 263 0xFF)).buf.length ∧
      (at' .frame (f1Part.take 7)).inv = true ∧ (at' .frame f1Part).inv = true ∧
      ((at' .frame f1Part).buf ++ [0x02])[4]? = some 0x05 ∧
      (at' .frame f1Part).buf.length + 1 = 8 + (0x05 : Byte).toNat ∧
      (at' .done [0xAB, 0x01]).inv = true ∧ (at' .failed marker).inv = true ∧
      (capped .failed (List.replicate 263 0xFF)).inv = true := by decide +kernel

/-- `OneEndEventPerPass`, `BytesAreConserved` and `AtMostOneFrameInEightBytes`: a pass that ends (S2) and the start of one
that does not (S5). -/
theorem witness_passes :
    State.reset.passStart = true ∧
      (∀ sw ∈ ([0x001, 0x000, 0x100] : List StepWord), decodeWord sw ≠ .reset) ∧
      events (runProgram State.reset [0x001, 0x000, 0x100]) = some ([.endOfPass false], [.incomplete marker]) ∧
      State.reset.cfg.bufCap = .unbounded ∧
      (∀ sw ∈ ([0x000, 0x001, 0x000] : List StepWord), decodeWord sw ≠ .reset ∧ decodeWord sw ≠ .synEoi) ∧
      events (runProgram State.reset [0x000, 0x001, 0x000]) = some ([], [.spurious [0x00]]) := by decide +kernel

/-- `L = 4`, `L = 5`, and bytes that are no Frame. -/
theorem witness_parseValidatesTheLength :
    isFrame f7 = true ∧ (byteAt f7 4).toNat < 5 ∧ isFrame f6 = true ∧ 5 ≤ (byteAt f6 4).toNat ∧ isFrame f1Part = false := by
  decide

theorem witness_parseSlicesTheFields :
    ([] : List Byte).length ≤ 250 ∧ (List.replicate 250 (0xFF : Byte)).length ≤ 250 := by decide +kernel

/-- No data and the most data; the three classes of direction. -/
theorem witness_parseAndEncodeRoundTrip :
    f6Message.wf = true ∧ { f6Message with payloadLength := 255, data := List.replicate 250 0 }.wf = true ∧
      (isFrame f3 = true ∧ 5 ≤ (byteAt f3 4).toNat ∧ parse f3 = .message f3Message ∧ byteAt f3 2 = 0x01#8) ∧
      (isFrame (f1Part ++ [0x02]) = true ∧ parse (f1Part ++ [0x02]) = .message f1Message ∧ byteAt f1Part 2 = 0x00#8) ∧
      (isFrame f6 = true ∧ 5 ≤ (byteAt f6 4).toNat ∧ parse f6 = .message f6Message ∧ byteAt f6 2 = 0x02#8) := by
  decide +kernel

theorem witness_trailerOrderPicksTheLowByte :
    (at' .hunt []).cfg.trailerOrder = .loFirst ∧ (hiFirst (at' .hunt [])).cfg.trailerOrder = .hiFirst := ⟨rfl, rfl⟩

/-- `DeliveredFrameIsReported` and `CheckedFramePasses`: no data and the most data, directions at both ends of the class `FRAME.OTHER`, and a buffer with one byte of room. -/
theorem witness_deliveredFrameIsReported :
    (at' .hunt [0xFF]).mode = .hunt ∧ capExceeded (at' .hunt [0xFF]).cfg.bufCap 2 = false ∧
      capExceeded (capped .hunt (List.replicate 262 0xFF)).cfg.bufCap 263 = false ∧ ([] : List Byte).length ≤ 250 ∧
      (List.replicate 250 (0x00 : Byte)).length ≤ 250 ∧ (0x02#8 ≠ 0x00#8 ∧ 0x02#8 ≠ 0x01#8) ∧
      0xFF#8 ≠ 0x00#8 ∧ 0xFF#8 ≠ 0x01#8 := by decide +kernel

theorem witness_deliveredShortFrameIsSkipped :
    (at' .hunt []).mode = .hunt ∧ capExceeded (at' .hunt []).cfg.bufCap 1 = false ∧ ([] : List Byte).length < 5 ∧
      [0x11, 0x22, 0x33, (0x44 : Byte)].length < 5 := by decide

theorem witness_frameDeliveryCompletes :
    State.reset.inv = true ∧ (at' .frame f1Part).inv = true ∧ (at' .done []).inv = true ∧
      (at' .done []).terminal = true := by decide

/-- `EveryStepKeepsTheInvariants` and `EveryStepEmitsALegalPair`: a step from a state that meets R17, with a legal trace. -/
theorem witness_stepKeepsTheInvariants :
    { at' .frame f1Part with input := [.word 0x002] }.inv = true ∧
      { at' .frame f1Part with input := [.word 0x002] }.traceLegal = true ∧
      step { at' .frame f1Part with input := [.word 0x002] } = .next { at' .hunt [] with
        trace := [⟨some (.msg f1Message 0x8E85 false), some (.crcMismatch 0x8E85 ⟨0x01, 0x02⟩)⟩] } :=
  ⟨by decide, by decide, next_of_state (by decide +kernel)⟩

/-- A run under each legal capacity at its boundary, and unbounded. -/
theorem witness_invariantsHoldOnEveryRun :
    (capped .hunt []).cfg.wf = true ∧ (capped .hunt []).mode = .hunt ∧ (capped .hunt []).buf = [] ∧
      (at' .hunt []).cfg.wf = true ∧
      Host.Core.run core 2 { at' .hunt [] with input := [.word 0x001, .word 0x000] } =
        .next { at' .frame marker with trace := [silent, silent] } :=
  ⟨by decide, rfl, rfl, by decide, rfl⟩

theorem witness_invariantsHoldAtReset : (at' .failed marker).cfg.wf = true ∧ (capped .frame marker).cfg.wf = true := by
  decide

theorem witness_meaningsAreTheBlockFunction : State.reset.inv = true ∧ (at' .failed marker).inv = true := by decide

theorem witness_everyStepWordCompletes :
    { at' .frame f1Part with input := [.word 0x002] }.inv = true ∧
      { at' .frame f1Part with input := [.word 0x002] }.input = [.word 0x002] := by decide

theorem witness_elementsAreReadAndWrittenAsTabled :
    exec .synEoi (at' .hunt [0xAB]) = .next { at' .done [0xAB] with trace := [⟨some (.endOfPass true), none⟩] } := rfl

/-- Each of the five conditions is raised by some step. -/
theorem witness_conditionsChangeTheStateAsTabled :
    exec (decodeWord 0x000) (at' .hunt [0xFF, 0x01]) =
        .next { at' .frame marker with trace := [⟨none, some (.spurious [0xFF])⟩] } ∧
      exec (decodeWord 0x0EF) (at' .frame (f7.take 11)) =
        .next { at' .hunt [] with trace := [⟨none, some (.tooShort f7)⟩] } ∧
      (exec (decodeWord 0x002) (at' .frame f1Part) = .next { at' .hunt [] with
        trace := [⟨some (.msg f1Message 0x8E85 false), some (.crcMismatch 0x8E85 ⟨0x01, 0x02⟩)⟩] }) ∧
      exec (decodeWord 0x100) (at' .frame marker) =
        .next { at' .failed marker with trace := [⟨some (.endOfPass false), some (.incomplete marker)⟩] } ∧
      view (exec (decodeWord 0x0FF) (capped .hunt (List.replicate 263 0xFF))) =
        some (.failed, List.replicate 263 0xFF, 0xFFFF,
          some ⟨some (.endOfPass false), some (.overflow (List.replicate 263 0xFF) 0xFF)⟩) :=
  ⟨rfl, next_of_state (by decide +kernel), next_of_state (by decide +kernel), rfl, by decide +kernel⟩

/-- A frame completion: F3 passes under `LO_FIRST` and is flagged under `HI_FIRST` (F4); and a silent byte. -/
theorem witness_trailerOrderOnlyChangesTheAnnotation :
    exec (decodeWord 0x0C9) (at' .frame (f3.take 14)) =
        .next { at' .hunt [] with trace := [⟨some (.msg f3Message 0xC964 true), none⟩] } ∧
      exec (decodeWord 0x0C9) (hiFirst (at' .frame (f3.take 14))) = .next { hiFirst (at' .hunt []) with
        trace := [⟨some (.msg f3Message 0xC964 false), some (.crcMismatch 0xC964 ⟨0x64, 0xC9⟩)⟩] } ∧
      exec (decodeWord 0x001) (at' .hunt []) = .next { at' .hunt [0x01] with trace := [silent] } :=
  ⟨next_of_state (by decide +kernel), next_of_state (by decide +kernel), rfl⟩

/-- A step that reports on both channels, codes 1 and 3. -/
theorem witness_eventCodesAreTheTables :
    exec (decodeWord 0x002) (at' .frame f1Part) = .next { at' .hunt [] with
        trace := [⟨some (.msg f1Message 0x8E85 false), some (.crcMismatch 0x8E85 ⟨0x01, 0x02⟩)⟩] } ∧
      Slots.codes ⟨some (.msg f1Message 0x8E85 false), some (.crcMismatch 0x8E85 ⟨0x01, 0x02⟩)⟩ = (1, 3) :=
  ⟨next_of_state (by decide +kernel), rfl⟩

/-- The last clause of `OneEndEventPerPass` under a finite capacity: no `SYN.EOI`, no `OVERFLOW`, no end. -/
theorem witness_passWithoutEnd :
    (capped .hunt []).passStart = true ∧ (capped .hunt []).cfg.bufCap ≠ .unbounded ∧
      (∀ sw ∈ ([0x000, 0x001, 0x000] : List StepWord), decodeWord sw ≠ .reset ∧ decodeWord sw ≠ .synEoi) ∧
      events (runProgram (capped .hunt []) [0x000, 0x001, 0x000]) = some ([], [.spurious [0x00]]) :=
  ⟨by decide, by decide, by simp [decodeWord, fieldRst, fieldOp], by decide +kernel⟩

/-- `ConditionsChangeTheStateAsTabled`, an overflow in a state that meets R17: the buffer is full. -/
theorem witness_overflowInvariant :
    (capped .hunt (List.replicate 263 0xFF)).inv = true ∧ (Diag.overflow (List.replicate 263 0xFF) 0xFF).fatal = true := by
  decide +kernel

/-- `EveryStepKeepsTheEndRule`: the second pass of a longer run, in mode `FRAME` behind an `END` of the first, takes an
end-of-input; a terminal mode takes a whole frame; and `RESET`. -/
theorem witness_everyStepKeepsTheEndRule :
    { at' .frame marker with input := [.word 0x100], trace := [⟨some (.endOfPass true), none⟩, silent] }.primary =
        [.endOfPass true] ++ [] ∧
      endRule .frame [] ∧ decode (.word 0x100) = .ok .synEoi ∧ Instr.synEoi ≠ .reset ∧
      endRule .done [.endOfPass true] ∧ decode (.burst f3) =
        .ok (.frameReply 0x00 tc0 [0x30, 0x23, 0x00, 0x26, 0x02, 0x64, 0xC9]) ∧ decode (.word 0x400) = .ok .reset ∧
      (step { at' .frame marker with input := [.word 0x100] } = .next { at' .failed marker with
        trace := [⟨some (.endOfPass false), some (.incomplete marker)⟩] }) :=
  ⟨rfl, rfl, rfl, by decide, ⟨[], rfl, rfl⟩, by decide +kernel, rfl, rfl⟩

/-- `EveryStepFoldsTheChecksum`: at reset nothing is folded in, and after one byte (K1) that byte is. -/
theorem witness_everyStepFoldsTheChecksum :
    State.reset.crc = checksum16 [] ∧ (0x947E : Word16) = checksum16 [0x31] ∧
      decode (.word 0x232) = .ok (.crcUpdate 0x32) ∧ decode (.word 0x300) = .ok .crcInit ∧
      Result.state (step { State.reset with input := [.word 0x231] }) =
        some { State.reset with crc := 0x947E, trace := [silent] } := by decide +kernel

/-- `EveryStepConservesBytes` and `EveryStepBoundsTheFrames`: a marker behind a stray byte, and a frame completed. -/
theorem witness_stepWordsConserveBytes :
    decodeWord 0x000 ≠ .reset ∧
      exec (decodeWord 0x000) (at' .hunt [0xFF, 0x01]) =
        .next { at' .frame marker with trace := [⟨none, some (.spurious [0xFF])⟩] } ∧
      decodeWord 0x0EF ≠ .reset ∧
      exec (decodeWord 0x0EF) (at' .frame (f7.take 11)) =
        .next { at' .hunt [] with trace := [⟨none, some (.tooShort f7)⟩] } :=
  ⟨by decide +kernel, rfl, by decide +kernel, next_of_state (by decide +kernel)⟩

end Sys2Proof.Tests
end

section
/-! The move of a step word determines its next state, and the moves of two states that differ in the trailer order only
are the same but for the annotation of a completed frame (R7, R97 to R99). -/

namespace Sys2Proof.Machine

open Sys2Proof

/-- What stands before a marker that the byte `d` completes is the buffer without its last byte (R75). -/
theorem dropLast_eq_of_append_eq_append_marker {buf before : List Byte} {d : Byte} (h : buf ++ [d] = before ++ marker) :
    buf.dropLast = before := by
  have hbuf : buf = before ++ [marker0] := by
    simpa [marker, List.dropLast_append_of_ne_nil] using congrArg List.dropLast h
  rw [hbuf, List.dropLast_concat]

/-- The converse of `wordMove_of_exec`: an instruction that can make a move makes it, and writes `crc` as
`crcAfter` says. -/
theorem exec_of_wordMove {s : State} {i : Instr} {mode : Mode} {buf : List Byte} {o : Slots}
    (h : WordMove s i mode buf o) : exec i s = .next (s.withBlock ⟨mode, buf, crcAfter i s.crc⟩ o) := by
  cases h with
  | reset => rfl
  | crcInit => rfl
  | crcUpdate d => rfl
  | byteAbsorbed d hterminal => exact execSynByte_terminal d s hterminal
  | eoiAbsorbed hterminal => exact execSynEoi_terminal s hterminal
  | eoiClean hmode => rw [exec, execSynEoi_eq, hmode]; rfl
  | eoiTruncated hmode => rw [exec, execSynEoi_eq, hmode]; rfl
  | markerFound d hmode before hbuf =>
    rw [exec, execSynByte_hunt d s hmode, huntByte_eq, if_pos ((endsInMarker_iff _).2 ⟨before, hbuf⟩),
      dropLast_eq_of_append_eq_append_marker hbuf]
    rfl
  | overflowed d hmode hmarker hfull =>
    rw [exec, execSynByte_hunt d s hmode, huntByte_eq, hmarker, hfull]
    rfl
  | byteHunted d hmode hmarker hroom =>
    rw [exec, execSynByte_hunt d s hmode, huntByte_eq, hmarker, hroom, ← hmode]
    rfl
  | byteFramed d hmode hpart =>
    rw [exec, execSynByte_frame d s hmode, frameByte_eq, hpart, ← hmode]
    rfl
  | frameDone d hmode hframe o hreport =>
    rw [exec, execSynByte_frame d s hmode, frameByte_eq, if_pos (frameComplete_of_isFrame _ hframe), hreport]
    rfl

/-- Two pairs of slots are equal, or report one Message with one checksum, each annotated under its own configuration
(R98, R99). -/
def SameButAnnotation (cfg cfg' : Config) (o o' : Slots) : Prop :=
  o' = o ∨ ∃ m c, o = Slots.checked m c (c == trailerValue cfg m) ∧ o' = Slots.checked m c (c == trailerValue cfg' m)

/-- The annotation has no part in whether a frame is reported. -/
theorem SameButAnnotation.isFrameReport_eq {cfg cfg' : Config} {o o' : Slots} (h : SameButAnnotation cfg cfg' o o') :
    o'.isFrameReport = o.isFrameReport := by
  obtain rfl | ⟨m, c, rfl, rfl⟩ := h
  · rfl
  · rfl

/-- Of the configuration, the parser's report on a Frame depends on nothing but the annotation (R97 to R99). -/
theorem exists_parseAndCheck_sameButAnnotation {cfg : Config} {f : List Byte} {o : Slots} (hf : isFrame f = true)
    (ho : parseAndCheck cfg f = some o) (cfg' : Config) :
    ∃ o', parseAndCheck cfg' f = some o' ∧ SameButAnnotation cfg cfg' o o' := by
  refine ⟨_, parseAndCheck_eq_checked cfg' f hf, ?_⟩
  have hreport := parseAndCheck_eq_checked cfg f hf
  rw [ho, Option.some.injEq] at hreport
  subst hreport
  by_cases hshort : (byteAt f 4).toNat < 5
  · rw [if_pos hshort, if_pos hshort]
    exact .inl rfl
  · rw [if_neg hshort, if_neg hshort]
    exact .inr ⟨messageOf f, frameCrc f, rfl, rfl⟩

/-- The same state under another trailer order (R7). -/
def State.withTrailerOrder (s : State) (order : TrailerOrder) : State :=
  { s with cfg := { s.cfg with trailerOrder := order } }

/-- A move is open under every trailer order, with the same mode and buffer after it: only the parser's report on a
completed frame reads the order (R7). -/
theorem WordMove.withTrailerOrder {s : State} {i : Instr} {mode : Mode} {buf : List Byte} {o : Slots}
    (h : WordMove s i mode buf o) (order : TrailerOrder) :
    ∃ o', WordMove (s.withTrailerOrder order) i mode buf o' ∧
      SameButAnnotation s.cfg (s.withTrailerOrder order).cfg o o' := by
  cases h with
  | reset => exact ⟨_, .reset, .inl rfl⟩
  | crcInit => exact ⟨_, .crcInit, .inl rfl⟩
  | crcUpdate d => exact ⟨_, .crcUpdate d, .inl rfl⟩
  | byteAbsorbed d hterminal => exact ⟨_, .byteAbsorbed d hterminal, .inl rfl⟩
  | eoiAbsorbed hterminal => exact ⟨_, .eoiAbsorbed hterminal, .inl rfl⟩
  | eoiClean hmode => exact ⟨_, .eoiClean hmode, .inl rfl⟩
  | eoiTruncated hmode => exact ⟨_, .eoiTruncated hmode, .inl rfl⟩
  | markerFound d hmode before hbuf =>
    exact ⟨_, .markerFound (s := s.withTrailerOrder order) d hmode before hbuf, .inl rfl⟩
  | overflowed d hmode hmarker hfull => exact ⟨_, .overflowed d hmode hmarker hfull, .inl rfl⟩
  | byteHunted d hmode hmarker hroom => exact ⟨_, .byteHunted d hmode hmarker hroom, .inl rfl⟩
  | byteFramed d hmode hpart => exact ⟨_, .byteFramed d hmode hpart, .inl rfl⟩
  | frameDone d hmode hframe o hreport =>
    obtain ⟨o', hreport', hsame⟩ :=
      exists_parseAndCheck_sameButAnnotation hframe hreport (s.withTrailerOrder order).cfg
    exact ⟨o', .frameDone (s := s.withTrailerOrder order) d hmode hframe o' hreport', hsame⟩

end Sys2Proof.Machine

namespace Sys2Proof.Proofs

open Sys2Proof Sys2Proof.Machine

/-- Settles O51: the step's move, taken again under the other order (`WordMove.withTrailerOrder`), is the step that the
other state makes (`exec_of_wordMove`). -/
theorem trailerOrderOnlyChangesTheAnnotation : Obligations.TrailerOrderOnlyChangesTheAnnotation := by
  intro s t sw order h
  obtain ⟨o, hmove, hcrc, htrace, hcfg, hinput⟩ := wordMove_of_exec s t sw h
  obtain ⟨o', hmove', hsame⟩ := hmove.withTrailerOrder order
  refine ⟨_, o, o', exec_of_wordMove hmove', rfl, rfl, hcrc.symm, hcfg, rfl, hinput.symm, htrace, rfl, ?_, hsame⟩
  rw [framesOut_of_trace (s.withTrailerOrder order) _ o' rfl, framesOut_of_trace s t o htrace, hsame.isFrameReport_eq]
  rfl

end Sys2Proof.Proofs
end

section
/-! The invariants of R17 under every move, one step of the machine by the kind of its input, and deliveries of bytes. -/

namespace Sys2Proof.Machine

open Sys2Proof

/-! ### The buffers that R17 allows -/

/-- A legal capacity holds every buffer that is no longer than a frame (R7, R17 item 5). -/
theorem withinCap_of_length_le {cfg : Config} (hcfg : cfg.wf = true) {buf : List Byte} (h : buf.length ≤ 263) :
    withinCap cfg.bufCap buf = true := by
  rw [withinCap, capExceeded_of_le cfg hcfg _ h]
  rfl

/-- The state of mode `HUNT` with an empty buffer meets R17 (R21). -/
theorem inv_of_hunt_nil {s : State} (hcfg : s.cfg.wf = true) (hmode : s.mode = .hunt) (hbuf : s.buf = []) :
    s.inv = true := by
  rw [inv_iff, hmode, hbuf]
  exact ⟨hcfg, rfl, withinCap_of_length_le hcfg (Nat.zero_le _)⟩

/-- A frame in progress goes on with a byte that does not complete it (R17 items 1 and 2, R76). -/
theorem framePart_append {buf : List Byte} {d : Byte} (h : framePart buf = true)
    (hpart : frameComplete (buf ++ [d]) = false) : framePart (buf ++ [d]) = true := by
  obtain ⟨⟨rest, rfl⟩, hlen⟩ := (framePart_iff buf).1 h
  refine (framePart_iff _).2 ⟨⟨rest ++ [d], rfl⟩, fun l hl => ?_⟩
  have hne : (marker0 :: marker1 :: rest ++ [d]).length ≠ 8 + l := by
    rw [frameComplete, hl] at hpart
    exact of_decide_eq_false hpart
  rw [List.length_append, List.length_singleton] at hne ⊢
  by_cases hfive : 5 ≤ (marker0 :: marker1 :: rest).length
  · have hlt := hlen l (by rw [← lengthByte_append _ d hfive, hl])
    omega
  · omega

/-- Unsynchronized bytes that leave no room in a finite buffer fill it (R17 item 4). -/
theorem fullHunt_of_capExceeded {s : State} (hfree : noMarker s.buf = true)
    (hcap : withinCap s.cfg.bufCap s.buf = true) (hfull : capExceeded s.cfg.bufCap (s.buf.length + 1) = true) :
    fullHunt s.cfg.bufCap s.buf = true := by
  rw [full_of_capExceeded s hcap hfull]
  simp [fullHunt, hfree]

/-- Every move from a state that meets R17 leads to a mode and a buffer that R17 allows. -/
theorem WordMove.modeInv_withinCap {s : State} {i : Instr} {mode : Mode} {buf : List Byte} {o : Slots}
    (h : WordMove s i mode buf o) (hs : s.inv = true) :
    modeInv s.cfg.bufCap mode buf = true ∧ withinCap s.cfg.bufCap buf = true := by
  obtain ⟨hcfg, hinv, hcap⟩ := (inv_iff s).1 hs
  have hnil : withinCap s.cfg.bufCap [] = true := withinCap_of_length_le hcfg (Nat.zero_le _)
  cases h with
  | reset => exact ⟨rfl, hnil⟩
  | crcInit => exact ⟨hinv, hcap⟩
  | crcUpdate d => exact ⟨hinv, hcap⟩
  | byteAbsorbed d hterminal => exact ⟨hinv, hcap⟩
  | eoiAbsorbed hterminal => exact ⟨hinv, hcap⟩
  | eoiClean hmode =>
    rw [hmode] at hinv
    exact ⟨hinv, hcap⟩
  | eoiTruncated hmode =>
    rw [hmode] at hinv
    exact ⟨Bool.or_eq_true_iff.2 (.inl hinv), hcap⟩
  | markerFound d hmode before hbuf => exact ⟨rfl, withinCap_of_length_le hcfg (by decide)⟩
  | overflowed d hmode hmarker hfull =>
    rw [hmode] at hinv
    exact ⟨Bool.or_eq_true_iff.2 (.inr (fullHunt_of_capExceeded hinv hcap hfull)), hcap⟩
  | byteHunted d hmode hmarker hroom =>
    rw [hmode] at hinv
    have hfree : noMarker s.buf = true := hinv
    exact ⟨by simp [modeInv, noMarker_append, hfree, hmarker], by simp [withinCap, hroom]⟩
  | byteFramed d hmode hpart =>
    rw [hmode] at hinv
    have hframe : framePart (s.buf ++ [d]) = true := framePart_append hinv hpart
    exact ⟨hframe, withinCap_of_length_le hcfg ((framePart_length _ hframe).trans (by decide))⟩
  | frameDone d hmode hframe o hreport => exact ⟨rfl, hnil⟩

/-! ### Step words, bytes and deliveries keep R17 -/

theorem exec_word_inv {s t : State} {sw : StepWord} (hs : s.inv = true) (h : exec (decodeWord sw) s = .next t) :
    t.inv = true := by
  obtain ⟨o, hmove, -, -, hcfg, -⟩ := wordMove_of_exec s t sw h
  rw [inv_iff, hcfg]
  exact ⟨((inv_iff s).1 hs).1, hmove.modeInv_withinCap hs⟩

theorem execSynByte_inv {s t : State} {d : Byte} (hs : s.inv = true) (h : execSynByte d s = .next t) :
    t.inv = true := by
  refine exec_word_inv (sw := synByteWord d) hs ?_
  rw [decodeWord_synByteWord]
  exact h

theorem stream_inv {bytes : List Byte} {s t : State} (hs : s.inv = true) (h : stream bytes s = .next t) :
    t.inv = true := by
  induction bytes generalizing s with
  | nil => cases h; exact hs
  | cons b bytes ih =>
    rw [stream, andThen_eq_next] at h
    obtain ⟨u, hb, hbytes⟩ := h
    exact ih (execSynByte_inv hs hb) hbytes

/-- In a state that meets R17 every delivery of bytes completes, with one pair of slots a byte, and leaves `crc`, the
configuration and the inputs alone (R13). -/
theorem stream_of_inv (bytes : List Byte) {s : State} (hs : s.inv = true) :
    ∃ t added, stream bytes s = .next t ∧ t.crc = s.crc ∧ t.cfg = s.cfg ∧ t.input = s.input ∧
      t.trace = s.trace ++ added ∧ added.length = bytes.length := by
  induction bytes generalizing s with
  | nil => exact ⟨s, [], rfl, rfl, rfl, rfl, by simp, rfl⟩
  | cons b bytes ih =>
    obtain ⟨u, o, hb, hcrc, hcfg, hinput, htrace⟩ := execSynByte_of_inv b s hs
    obtain ⟨t, added, hbytes, hcrc', hcfg', hinput', htrace', hlen⟩ := ih (execSynByte_inv hs hb)
    refine ⟨t, o :: added, ?_, hcrc'.trans hcrc, hcfg'.trans hcfg, hinput'.trans hinput, ?_, by simp [hlen]⟩
    · rw [stream, hb, andThen_next, hbytes]
    · rw [htrace', htrace, List.append_assoc, List.singleton_append]

/-- In a terminal mode a delivery is absorbed byte by byte (R79, R82). -/
theorem stream_of_terminal (bytes : List Byte) {s : State} (hs : s.terminal = true) :
    stream bytes s = .next { s with trace := s.trace ++ List.replicate bytes.length ⟨none, none⟩ } := by
  induction bytes generalizing s with
  | nil => simp [stream]
  | cons b bytes ih =>
    have hquiet : s.quiet.terminal = true := hs
    rw [stream, execSynByte_terminal b s hs, andThen_next, ih hquiet]
    simp [State.quiet, State.emit, List.replicate_succ]

/-! ### One step of the machine -/

/-- The meaning of a frame's class is the delivery of its bytes, whichever class it is (R47, R57; log 5). -/
theorem exec_frameOfDirection (direction flags : Byte) (typeCode : TypeCode) (payload : List Byte) (s : State) :
    exec (frameOfDirection direction flags typeCode payload) s =
      stream (frameBytes direction flags typeCode payload) s := by
  unfold frameOfDirection
  split
  case isTrue hreply => rw [hreply]; rfl
  case isFalse =>
    split
    case isTrue hrequest => rw [hrequest]; rfl
    case isFalse => rfl

/-- What a burst that decodes means: its bytes are a Frame and are delivered (R45, R57). -/
theorem decodeFrame_eq_ok {f : List Byte} {i : Instr} (h : decodeFrame f = .ok i) :
    isFrame f = true ∧ ∀ s, exec i s = stream f s := by
  unfold decodeFrame at h
  split at h
  case isTrue hf =>
    cases h
    refine ⟨hf, fun s => ?_⟩
    rw [exec_frameOfDirection, ← (eq_frameBytes_of_isFrame f hf).1]
  case isFalse => cases h

/-- A step that goes on waits, runs a step word or delivers a Frame (R27, R28, R106). -/
theorem step_cases {s t : State} (h : step s = .next t) :
    (s.input = [] ∧ t = s) ∨
    (∃ sw rest, s.input = .word sw :: rest ∧ exec (decodeWord sw) (s.takeInput rest) = .next t) ∨
    ∃ f rest, s.input = .burst f :: rest ∧ isFrame f = true ∧ stream f (s.takeInput rest) = .next t := by
  unfold step at h
  cases hinput : s.input with
  | nil =>
    rw [hinput] at h
    cases h
    exact .inl ⟨rfl, rfl⟩
  | cons x rest =>
    rw [hinput] at h
    cases x with
    | word sw => exact .inr (.inl ⟨sw, rest, rfl, h⟩)
    | burst f =>
      cases hdecode : decodeFrame f with
      | ok i =>
        obtain ⟨hf, hexec⟩ := decodeFrame_eq_ok hdecode
        simp only [decode, hdecode, hexec] at h
        exact .inr (.inr ⟨f, rest, rfl, hf, h⟩)
      | error e =>
        cases e
        simp only [decode, hdecode] at h
        cases h

/-- The inputs have no part in R17. -/
@[simp] theorem takeInput_inv (s : State) (rest : List Input) : (s.takeInput rest).inv = s.inv := rfl

theorem step_inv {s t : State} (hs : s.inv = true) (h : step s = .next t) : t.inv = true := by
  obtain ⟨-, rfl⟩ | ⟨sw, rest, -, hword⟩ | ⟨f, rest, -, -, hburst⟩ := step_cases h
  · exact hs
  · exact exec_word_inv ((takeInput_inv s rest).trans hs) hword
  · exact stream_inv ((takeInput_inv s rest).trans hs) hburst

/-! ### R17 in index form -/

/-- Items 1 and 2 of R17 as the rule writes them. -/
theorem framePart_items {buf : List Byte} (h : framePart buf = true) :
    2 ≤ buf.length ∧ buf[0]? = some marker0 ∧ buf[1]? = some marker1 ∧ buf.length ≤ 262 ∧
      ∀ l : Byte, buf[4]? = some l → buf.length < 8 + l.toNat := by
  have hmax := framePart_length buf h
  obtain ⟨⟨rest, rfl⟩, hlen⟩ := (framePart_iff buf).1 h
  exact ⟨by simp, rfl, rfl, hmax, fun l hl => hlen l.toNat (by rw [lengthByte, hl]; rfl)⟩

/-- Item 4 of R17, second case, as the rule writes it. -/
theorem fullHunt_iff {cap : BufCap} {buf : List Byte} :
    fullHunt cap buf = true ↔ noMarker buf = true ∧ cap = .bounded buf.length := by
  cases cap with
  | unbounded => simp [fullHunt]
  | bounded n => simp [fullHunt, eq_comm (a := n)]

/-- Item 5 of R17 as the rule writes it. -/
theorem withinCap_iff {cap : BufCap} {buf : List Byte} :
    withinCap cap buf = true ↔ ∀ n, cap = .bounded n → buf.length ≤ n := by
  cases cap with
  | unbounded => simp [withinCap, capExceeded]
  | bounded n => simp [withinCap, capExceeded]

/-! ### Elements that an instruction does not read -/

/-- `SYN.BYTE` neither reads nor writes `crc` (R13). -/
theorem execSynByte_setCrc (d : Byte) (s : State) (c : Word16) :
    execSynByte d (s.setCrc c) = Result.andThen (execSynByte d s) fun t => .next (t.setCrc c) := by
  cases hmode : s.mode with
  | hunt =>
    rw [execSynByte_hunt d s hmode, execSynByte_hunt d (s.setCrc c) hmode, huntByte_eq, huntByte_eq, setCrc_buf,
      setCrc_cfg]
    split
    · rfl
    · split <;> rfl
  | frame =>
    rw [execSynByte_frame d s hmode, execSynByte_frame d (s.setCrc c) hmode, frameByte_eq, frameByte_eq, setCrc_buf,
      setCrc_cfg]
    split
    · cases parseAndCheck s.cfg (s.buf ++ [d]) <;> rfl
    · rfl
  | done | failed =>
    have hterminal : s.terminal = true := by rw [State.terminal, hmode]; rfl
    rw [execSynByte_terminal d s hterminal, execSynByte_terminal d (s.setCrc c) hterminal]
    rfl

/-- `SYN.EOI` neither reads nor writes `crc` (R13). -/
theorem execSynEoi_setCrc (s : State) (c : Word16) :
    execSynEoi (s.setCrc c) = Result.andThen (execSynEoi s) fun t => .next (t.setCrc c) := by
  rw [execSynEoi_eq, execSynEoi_eq]
  rfl

/-- The state of a result followed by an update is the update of its state. -/
theorem result_state_andThen_next (r : Result) (f : State → State) :
    Result.state (Result.andThen r fun t => .next (f t)) = (Result.state r).map f := by
  cases r <;> rfl

/-- A silent step adds nothing to either channel (R123). -/
@[simp] theorem quiet_primary (s : State) : s.quiet.primary = s.primary := by
  simp [State.primary]

@[simp] theorem quiet_diagnostic (s : State) : s.quiet.diagnostic = s.diagnostic := by
  simp [State.diagnostic]

end Sys2Proof.Machine

namespace Sys2Proof.Proofs

open Sys2Proof Sys2Proof.Machine

/-- Settles O44: each of the three kinds of step keeps R17 (`step_inv`), a step word because its move does. -/
theorem everyStepKeepsTheInvariants : Obligations.EveryStepKeepsTheInvariants := fun _ _ => step_inv

/-- Settles O25: in mode `FRAME` R17 gives `buf` its marker, so a completed length is a Frame (`isFrame_of_framePart`);
the parser has events for nothing else (`parseAndCheck_isSome`). -/
theorem completedSequencesAreFrames : Obligations.CompletedSequencesAreFrames := by
  intro s d l hmode hl hlen
  have hcomplete : frameComplete (s.buf ++ [d]) = true := (frameComplete_iff _).2 ⟨l, hl, hlen⟩
  constructor
  · intro hs
    obtain ⟨-, hinv, -⟩ := (inv_iff s).1 hs
    rw [hmode] at hinv
    exact isFrame_of_framePart s.buf d hinv hcomplete
  · intro hframe
    have hnone : parseAndCheck s.cfg (s.buf ++ [d]) = none := by
      rw [← Option.isSome_eq_false_iff.trans Option.isNone_iff_eq_none, parseAndCheck_isSome, hframe]
    rw [exec, execSynByte_frame d s hmode, frameByte_eq, if_pos hcomplete, hnone]

/-- Settles O40: each class is a delivery of `8 + L` bytes, which completes under R17 (`stream_of_inv`) and is absorbed
in a terminal mode (`stream_of_terminal`). -/
theorem frameDeliveryCompletes : Obligations.FrameDeliveryCompletes := by
  intro s direction flags typeCode payload hs i hi
  obtain ⟨dir, hexec⟩ : ∃ dir, exec i s = stream (frameBytes dir flags typeCode payload) s := by
    obtain rfl | rfl | rfl := hi
    · exact ⟨0x01#8, rfl⟩
    · exact ⟨0x00#8, rfl⟩
    · exact ⟨direction, rfl⟩
  have hlen := frameBytes_length dir flags typeCode payload
  rw [hexec]
  by_cases hterminal : s.terminal = true
  · exact ⟨_, _, stream_of_terminal _ hterminal, rfl, rfl, rfl, rfl, by rw [List.length_replicate, hlen],
      fun _ => ⟨rfl, rfl, fun _ => List.eq_of_mem_replicate⟩⟩
  · obtain ⟨t, added, hstream, hcrc, hcfg, hinput, htrace, hadded⟩ := stream_of_inv _ hs
    exact ⟨t, added, hstream, hcrc, hcfg, hinput, htrace, hadded.trans hlen, fun h => absurd h hterminal⟩

/-- Settles O46: R17 holds at the start and every step keeps it (`run_induction`); each item is then read off the mode. -/
theorem invariantsHoldOnEveryRun : Obligations.InvariantsHoldOnEveryRun := by
  intro s t n hcfg hmode hbuf hrun
  have ht : t.inv = true :=
    run_induction (fun u => u.inv = true) (fun _ _ => step_inv) n s t (inv_of_hunt_nil hcfg hmode hbuf) hrun
  obtain ⟨-, hinv, hcap⟩ := (inv_iff t).1 ht
  refine ⟨fun hm => ?_, fun hm => ?_, fun hm => ?_, withinCap_iff.1 hcap⟩
  · rw [hm] at hinv
    exact framePart_items hinv
  · obtain hm | hm := hm <;> rw [hm] at hinv <;> exact (noMarker_iff _).1 hinv
  · rw [hm] at hinv
    obtain hpart | hfull := Bool.or_eq_true_iff.1 hinv
    · exact .inl (framePart_items hpart)
    · obtain ⟨hfree, hfull⟩ := fullHunt_iff.1 hfull
      exact .inr ⟨(noMarker_iff _).1 hfree, hfull⟩

/-- Settles O49: the `SYN.*` commands pass `crc` through (`execSynByte_setCrc`, `execSynEoi_setCrc`), and the meanings
of the other three do not mention the elements they do not read. -/
theorem elementsAreReadAndWrittenAsTabled : Obligations.ElementsAreReadAndWrittenAsTabled := by
  refine ⟨fun s c i hi => ?_, fun s t h => ?_, fun s m b i hi => ?_, fun _ _ => rfl, fun _ _ _ _ => rfl⟩
  · have hpass : exec i (s.setCrc c) = Result.andThen (exec i s) fun t => .next (t.setCrc c) := by
      obtain rfl | ⟨d, rfl⟩ := hi
      · exact execSynEoi_setCrc s c
      · exact execSynByte_setCrc d s c
    exact (congrArg Result.state hpass).trans (result_state_andThen_next _ _)
  · rw [exec, execSynEoi_eq] at h
    cases h
    rfl
  · obtain rfl | ⟨d, rfl⟩ := hi
    · rfl
    · rfl

/-- Settles O1: `RESET` writes the three elements and closes a silent step. -/
theorem resetStateIsTheSpecs : Obligations.ResetStateIsTheSpecs :=
  ⟨rfl, rfl, rfl, rfl, rfl, rfl, rfl, rfl, fun _ =>
    ⟨_, rfl, rfl, rfl, rfl, rfl, rfl, rfl, quiet_primary _, quiet_diagnostic _, rfl⟩⟩

/-- Settles O4: the view is made of the elements themselves; the least width of 256 to 511 is nine bits. -/
theorem statusViewMirrorsTheState : Obligations.StatusViewMirrorsTheState := by
  refine ⟨fun _ => ⟨rfl, rfl, rfl⟩, rfl, rfl, rfl, rfl, fun c hc => ?_, fun c n hc hn => ?_⟩
  · rw [stBufLenWidth, hc]
  · refine ⟨n.log2 + 1, by rw [stBufLenWidth, hc], Nat.lt_log2_self, fun hmax => ?_⟩
    rw [(Nat.log2_eq_iff (k := 8) (by omega)).2 ⟨by omega, by omega⟩]

/-- Settles O45: both states are of mode `HUNT` with an empty buffer (`inv_of_hunt_nil`). -/
theorem invariantsHoldAtReset : Obligations.InvariantsHoldAtReset :=
  ⟨inv_of_hunt_nil rfl rfl rfl, fun _ hcfg => ⟨_, rfl, inv_of_hunt_nil hcfg rfl rfl⟩⟩

end Sys2Proof.Proofs
end

section
/-! The bytes of the stream: what a completed frame's report accounts for, the byte that a step takes in, and the
conservation of R39 carried along a run. -/

namespace Sys2Proof.Machine

open Sys2Proof

/-! ### The report of a completed frame -/

section

variable (direction flags : Byte) (typeCode : TypeCode) (id : BytePair) (subindex : Byte) (data : List Byte)
  (trailer : BytePair)

/-- The length byte of a frame written from its fields (R45, R92). -/
theorem byteAt_length_frameBytes :
    byteAt (frameBytes direction flags typeCode (framePayload id subindex data trailer)) 4 =
      BitVec.ofNat 8 (5 + data.length) := by
  rw [← framePayload_length id subindex data trailer]
  rfl

/-- The slice of the data bytes, offsets 11 to `5 + L` (R92). -/
theorem slice_data_frameBytes :
    slice (frameBytes direction flags typeCode (framePayload id subindex data trailer)) 11 (5 + (5 + data.length)) =
      data := by
  have hdrop : (frameBytes direction flags typeCode (framePayload id subindex data trailer)).drop 11 =
      data ++ trailer.bytes := rfl
  rw [slice, hdrop, show 5 + (5 + data.length) + 1 - 11 = data.length by omega, List.take_left]

/-- The two trailer bytes, offsets `6 + L` and `7 + L` (R92). -/
theorem byteAt_trailer_frameBytes :
    byteAt (frameBytes direction flags typeCode (framePayload id subindex data trailer)) (6 + (5 + data.length)) =
        trailer.first ∧
      byteAt (frameBytes direction flags typeCode (framePayload id subindex data trailer)) (7 + (5 + data.length)) =
        trailer.second := by
  obtain ⟨front, hfront, hlen⟩ : ∃ front,
      frameBytes direction flags typeCode (framePayload id subindex data trailer) = front ++ trailer.bytes ∧
        front.length = 11 + data.length :=
    ⟨(frameBytes direction flags typeCode (framePayload id subindex data trailer)).take (11 + data.length),
      by simp [frameBytes, framePayload, BytePair.bytes, Nat.add_comm 11], by simp; omega⟩
  rw [hfront, show 6 + (5 + data.length) = front.length + 0 by omega,
    show 7 + (5 + data.length) = front.length + 1 by omega, byteAt_append, byteAt_append]
  exact ⟨rfl, rfl⟩

/-- The parser's slices give back the fields a frame was written from (R92, R93). -/
theorem messageOf_frameBytes (hdata : data.length ≤ 250) :
    messageOf (frameBytes direction flags typeCode (framePayload id subindex data trailer)) =
      { isReply := direction == 0x01#8, flags := flags, payloadLength := BitVec.ofNat 8 (5 + data.length)
        typeCode := typeCode, datapointId := id, subindex := subindex, data := data, trailer := trailer } := by
  have hnat : (BitVec.ofNat 8 (5 + data.length)).toNat = 5 + data.length := by
    rw [BitVec.toNat_ofNat, Nat.mod_eq_of_lt (by omega)]
  obtain ⟨hfirst, hsecond⟩ := byteAt_trailer_frameBytes direction flags typeCode id subindex data trailer
  simp only [messageOf, byteAt_length_frameBytes, hnat, slice_data_frameBytes, hfirst, hsecond]
  rfl

end

/-- `encode` of the Message of a Frame with `L >= 5` is the Frame with the direction byte that R100 spells. -/
theorem encodeMessage_messageOf {f : List Byte} (hf : isFrame f = true) (hlong : 5 ≤ (byteAt f 4).toNat) :
    encodeMessage (messageOf f) = f.set 2 (if byteAt f 2 = 0x01#8 then 0x01#8 else 0x00#8) := by
  obtain ⟨direction, flags, typeCode, id, subindex, data, trailer, rfl, hdata, hdirection⟩ :=
    exists_fields_of_isFrame f hf hlong
  rw [hdirection, messageOf_frameBytes direction flags typeCode id subindex data trailer hdata, encodeMessage_eq]
  · simp [frameBytes]
  · rw [message_wf_iff]
    simp only [BitVec.toNat_ofNat]
    omega

/-- A Frame is the bytes its Message accounts for, up to the direction byte of a request (R39, R101). -/
theorem eq_encodeMessage_or_set_eq {f : List Byte} (hf : isFrame f = true) (hlong : 5 ≤ (byteAt f 4).toNat) :
    f = encodeMessage (messageOf f) ∨ f.set 2 0x00#8 = encodeMessage (messageOf f) := by
  rw [encodeMessage_messageOf hf hlong]
  by_cases hreply : byteAt f 2 = 0x01#8
  · rw [if_pos hreply]
    obtain ⟨dir, flags, len, t0, t1, t2, payload, rfl, -⟩ := (isFrame_iff f).1 hf
    obtain rfl : dir = 0x01#8 := hreply
    exact .inl rfl
  · rw [if_neg hreply]
    exact .inr rfl

/-- The report of a completed Frame accounts for the bytes of that Frame (R39). -/
theorem parseAndCheck_accountsFor {cfg : Config} {f : List Byte} {o : Slots} (hf : isFrame f = true)
    (ho : parseAndCheck cfg f = some o) : o.accountsFor f := by
  rw [parseAndCheck_eq_checked cfg f hf, Option.some.injEq] at ho
  subst ho
  split
  case isTrue => rfl
  case isFalse hlong => exact eq_encodeMessage_or_set_eq hf (by omega)

/-- The report of a completed Frame drops no byte. -/
theorem parseAndCheck_dropped {cfg : Config} {f : List Byte} {o : Slots} (hf : isFrame f = true)
    (ho : parseAndCheck cfg f = some o) : o.dropped = [] := by
  rw [parseAndCheck_of_isFrame cfg f hf, Option.some.injEq] at ho
  subst ho
  split
  · rfl
  · split <;> rfl

/-! ### One step word -/

/-- The bytes of the stream that an instruction takes in: the operand of a `SYN.BYTE` outside the terminal modes
(R39). -/
def bytesTaken (s : State) (i : Instr) : List Byte := if s.terminal then [] else (synOperand i).toList

theorem bytesTaken_of_synOperand_eq_none {s : State} {i : Instr} (h : synOperand i = none) : bytesTaken s i = [] := by
  simp [bytesTaken, h]

theorem bytesTaken_of_terminal {s : State} (h : s.terminal = true) (i : Instr) : bytesTaken s i = [] := by
  rw [bytesTaken, if_pos h]

theorem bytesTaken_synByte {s : State} (h : s.terminal = false) (d : Byte) : bytesTaken s (.synByte d) = [d] := by
  rw [bytesTaken, h]
  rfl

theorem acceptedBytes_cons {s t : State} {sw : StepWord} (h : exec (decodeWord sw) s = .next t)
    (program : List StepWord) :
    acceptedBytes s (sw :: program) = bytesTaken s (decodeWord sw) ++ acceptedBytes t program := by
  rw [acceptedBytes, h]
  rfl

theorem terminal_of_hunt {s : State} (h : s.mode = .hunt) : s.terminal = false := by
  rw [State.terminal, h]
  rfl

theorem terminal_of_frame {s : State} (h : s.mode = .frame) : s.terminal = false := by
  rw [State.terminal, h]
  rfl

/-- Every move but `RESET` conserves the bytes of the stream (R39). -/
theorem WordMove.conserves {s : State} {i : Instr} {mode : Mode} {buf : List Byte} {o : Slots}
    (h : WordMove s i mode buf o) (hi : i ≠ .reset) :
    ∃ chunk, o.accountsFor chunk ∧ s.buf ++ bytesTaken s i = chunk ++ buf ++ o.dropped := by
  cases h with
  | reset => exact absurd rfl hi
  | crcInit => exact ⟨[], rfl, by rw [bytesTaken_of_synOperand_eq_none rfl]; rfl⟩
  | crcUpdate d => exact ⟨[], rfl, by rw [bytesTaken_of_synOperand_eq_none rfl]; rfl⟩
  | byteAbsorbed d hterminal => exact ⟨[], rfl, by rw [bytesTaken_of_terminal hterminal]; rfl⟩
  | eoiAbsorbed hterminal => exact ⟨[], rfl, by rw [bytesTaken_of_terminal hterminal]; rfl⟩
  | eoiClean hmode => exact ⟨[], rfl, by rw [bytesTaken_of_synOperand_eq_none rfl]; rfl⟩
  | eoiTruncated hmode => exact ⟨[], rfl, by rw [bytesTaken_of_synOperand_eq_none rfl]; rfl⟩
  | markerFound d hmode before hbuf =>
    refine ⟨before, ?_, ?_⟩
    · cases before <;> rfl
    · rw [bytesTaken_synByte (terminal_of_hunt hmode), hbuf]
      cases before <;> simp [Slots.dropped]
  | overflowed d hmode hmarker hfull =>
    exact ⟨[], rfl, by rw [bytesTaken_synByte (terminal_of_hunt hmode)]; rfl⟩
  | byteHunted d hmode hmarker hroom =>
    exact ⟨[], rfl, by rw [bytesTaken_synByte (terminal_of_hunt hmode)]; simp [Slots.dropped]⟩
  | byteFramed d hmode hpart =>
    exact ⟨[], rfl, by rw [bytesTaken_synByte (terminal_of_frame hmode)]; simp [Slots.dropped]⟩
  | frameDone d hmode hframe o hreport =>
    refine ⟨s.buf ++ [d], parseAndCheck_accountsFor hframe hreport, ?_⟩
    rw [bytesTaken_synByte (terminal_of_frame hmode), parseAndCheck_dropped hframe hreport]
    simp

/-- Only a move into a terminal mode drops a byte (R78). -/
theorem WordMove.dropped_eq_nil {s : State} {i : Instr} {mode : Mode} {buf : List Byte} {o : Slots}
    (h : WordMove s i mode buf o) (hmode : mode.isTerminal = false) : o.dropped = [] := by
  cases h with
  | overflowed => cases hmode
  | markerFound _ _ before => cases before <;> rfl
  | frameDone d _ hframe o hreport => exact parseAndCheck_dropped hframe hreport
  | _ => rfl

/-- In a terminal mode every move but `RESET` is silent and leaves the mode and `buf` alone (R79, R82, R107). -/
theorem WordMove.of_terminal {s : State} {i : Instr} {mode : Mode} {buf : List Byte} {o : Slots}
    (h : WordMove s i mode buf o) (hi : i ≠ .reset) (hs : s.terminal = true) :
    mode = s.mode ∧ buf = s.buf ∧ o = ⟨none, none⟩ := by
  have hhunt : s.mode ≠ .hunt := fun hmode => by rw [terminal_of_hunt hmode] at hs; cases hs
  have hframe : s.mode ≠ .frame := fun hmode => by rw [terminal_of_frame hmode] at hs; cases hs
  cases h with
  | reset => exact absurd rfl hi
  | crcInit | crcUpdate | byteAbsorbed | eoiAbsorbed => exact ⟨rfl, rfl, rfl⟩
  | eoiClean hmode | markerFound _ hmode | overflowed _ hmode | byteHunted _ hmode => exact absurd hmode hhunt
  | eoiTruncated hmode | byteFramed _ hmode | frameDone _ hmode => exact absurd hmode hframe

/-! ### A pass -/

/-- The conservation of R39 at one point of a pass that has taken in the bytes `taken`; a byte is dropped at the end of
the pass only. -/
def ConservesBytes (s : State) (taken : List Byte) : Prop :=
  (s.terminal = false → s.trace.flatMap Slots.dropped = []) ∧
    ∃ chunks, List.Forall₂ Slots.accountsFor s.trace chunks ∧
      taken = chunks.flatten ++ s.buf ++ s.trace.flatMap Slots.dropped

theorem conservesBytes_of_passStart {s : State} (h : s.passStart = true) : ConservesBytes s [] := by
  obtain ⟨-, hbuf, htrace, -⟩ := (passStart_iff s).1 h
  rw [ConservesBytes, htrace, hbuf]
  exact ⟨fun _ => rfl, [], .nil, rfl⟩

/-- Every step word but `RESET` keeps the conservation, with the byte it takes in added. -/
theorem ConservesBytes.exec_word {s t : State} {taken : List Byte} {sw : StepWord} (hs : ConservesBytes s taken)
    (hreset : decodeWord sw ≠ .reset) (h : exec (decodeWord sw) s = .next t) :
    ConservesBytes t (taken ++ bytesTaken s (decodeWord sw)) := by
  obtain ⟨hdropped, chunks, hchunks, rfl⟩ := hs
  obtain ⟨o, hmove, -, htrace, -, -⟩ := wordMove_of_exec s t sw h
  cases hterminal : s.terminal with
  | true =>
    obtain ⟨hmode, hbuf, rfl⟩ := hmove.of_terminal hreset hterminal
    have ht : t.terminal = true := by rw [State.terminal, hmode]; exact hterminal
    refine ⟨fun hf => absurd (ht.symm.trans hf) (by decide), chunks ++ [[]], ?_, ?_⟩
    · rw [htrace]
      exact List.rel_append hchunks (.cons rfl .nil)
    · rw [bytesTaken_of_terminal hterminal, htrace, hbuf]
      simp [Slots.dropped]
  | false =>
    obtain ⟨chunk, hchunk, hbytes⟩ := hmove.conserves hreset
    have hnone := hdropped hterminal
    have htdropped : t.trace.flatMap Slots.dropped = o.dropped := by
      rw [htrace, List.flatMap_append, hnone]
      simp
    refine ⟨fun ht => htdropped.trans (hmove.dropped_eq_nil ht), chunks ++ [chunk], ?_, ?_⟩
    · rw [htrace]
      exact List.rel_append hchunks (.cons hchunk .nil)
    · calc chunks.flatten ++ s.buf ++ s.trace.flatMap Slots.dropped ++ bytesTaken s (decodeWord sw)
          = chunks.flatten ++ (s.buf ++ bytesTaken s (decodeWord sw)) := by rw [hnone]; simp
        _ = (chunks ++ [chunk]).flatten ++ t.buf ++ t.trace.flatMap Slots.dropped := by
          rw [hbytes, htdropped]; simp

/-- Every run without `RESET` keeps the conservation, with the bytes it takes in added. -/
theorem ConservesBytes.run {program : List StepWord} {s t : State} {taken : List Byte}
    (hs : ConservesBytes s taken) (hreset : ∀ sw ∈ program, decodeWord sw ≠ .reset)
    (h : runWords s program = .next t) : ConservesBytes t (taken ++ acceptedBytes s program) := by
  induction program generalizing s taken with
  | nil =>
    cases h
    rw [acceptedBytes, List.append_nil]
    exact hs
  | cons sw program ih =>
    rw [runWords, andThen_eq_next] at h
    obtain ⟨u, hword, hrest⟩ := h
    obtain ⟨hfirst, hothers⟩ := List.forall_mem_cons.1 hreset
    rw [acceptedBytes_cons hword, ← List.append_assoc]
    exact ih (hs.exec_word hfirst hword) hothers hrest

end Sys2Proof.Machine

namespace Sys2Proof.Proofs

open Sys2Proof Sys2Proof.Machine

/-- Settles O55: each move conserves the bytes (`WordMove.conserves`); a completed Frame is the one that its report
accounts for (`parseAndCheck_accountsFor`). -/
theorem everyStepConservesBytes : Obligations.EveryStepConservesBytes := by
  intro s t sw hreset h
  obtain ⟨o, hmove, -, htrace, -, -⟩ := wordMove_of_exec s t sw h
  obtain ⟨chunk, hchunk, hbytes⟩ := hmove.conserves hreset
  exact ⟨o, chunk, htrace, hchunk, hbytes⟩

/-- Settles O31: conservation holds at the start of a pass and every step word keeps it (`ConservesBytes.exec_word`);
behind a dropped byte the pass is over and takes in nothing (`WordMove.of_terminal`). -/
theorem bytesAreConserved : Obligations.BytesAreConserved := by
  intro s t program hstart hreset hrun
  rw [runProgram_eq] at hrun
  exact ((conservesBytes_of_passStart hstart).run hreset hrun).2

/-- Settles O3: `step` looks at the queue first. -/
theorem waitingChangesNothing : Obligations.WaitingChangesNothing := by
  intro s hinput
  rw [step, hinput]

/-- Settles O11: `step` takes the head of the queue and dispatches on its decoding. -/
theorem stepRunsTheDecodedInstruction : Obligations.StepRunsTheDecodedInstruction := by
  intro s x rest i hinput hdecode
  rw [step, hinput]
  simp only [hdecode]
  rfl

end Sys2Proof.Proofs
end

section
/-! The encodings both ways (R40 to R47): a step word is the three fields it is read by, the class of a frame by its
direction byte, and the decoder after the encoder and before it. -/

namespace Sys2Proof.Machine

open Sys2Proof

/-! ### Step words -/

/-- A step word is put together from the fields read from it (R40). -/
theorem stepWord_fields (sw : StepWord) : stepWord (fieldRst sw) (fieldOp sw) (fieldData sw) = sw := by
  apply BitVec.eq_of_getLsbD_eq
  intro i hi
  rw [getLsbD_stepWord, fieldRst, fieldOp, fieldData]
  simp only [BitVec.getLsbD_extractLsb']
  split
  case isTrue hdata => simp [hdata]
  case isFalse =>
    split
    case isTrue hop => simp [hop, show 8 + (i - 8) = i by omega]
    case isFalse => simp [show i = 10 by omega]

/-- The decoder on a step word given by its fields, `rst` first (R41, R43). -/
theorem decodeWord_stepWord (rst : BitVec 1) (op : BitVec 2) (data : Byte) :
    decodeWord (stepWord rst op data) =
      if rst = 1#1 then .reset
      else if op = 0b00#2 then .synByte data
      else if op = 0b01#2 then .synEoi
      else if op = 0b10#2 then .crcUpdate data
      else .crcInit := by
  obtain ⟨hrst, hop, hdata⟩ := fields_stepWord rst op data
  rw [decodeWord, hrst, hop, hdata]

/-- The bitwise AND of two step words, field by field. -/
theorem stepWord_and (rst rst' : BitVec 1) (op op' : BitVec 2) (data data' : Byte) :
    stepWord rst op data &&& stepWord rst' op' data' = stepWord (rst &&& rst') (op &&& op') (data &&& data') := by
  show (rst ++ op ++ data : BitVec (1 + 2 + 8)) &&& (rst' ++ op' ++ data') = _
  rw [BitVec.and_append, BitVec.and_append]
  rfl

theorem stepWord_inj {rst rst' : BitVec 1} {op op' : BitVec 2} {data data' : Byte} :
    stepWord rst op data = stepWord rst' op' data' ↔ rst = rst' ∧ op = op' ∧ data = data' := by
  rw [← and_assoc, ← bitVec_append_inj, ← bitVec_append_inj]
  rfl

/-- What a row of R41 tests when its mask and its match leave the data field out: the bits of `rst` and `op` under the
mask. -/
theorem matches_stepWord (row : Mnemonic) (rst rstPattern rstMask : BitVec 1) (op opPattern opMask : BitVec 2)
    (data : Byte) :
    TableRow.matches ⟨row, stepWord rstPattern opPattern 0x00#8, stepWord rstMask opMask 0x00#8⟩
        (stepWord rst op data) =
      (rst &&& rstMask == rstPattern && op &&& opMask == opPattern) := by
  rw [TableRow.matches, stepWord_and, Bool.eq_iff_iff]
  simp [stepWord_inj]

/-- The five rows of R41 by their fields. -/
theorem wordRows_eq : wordRows =
    [⟨.reset, stepWord 1#1 0b00#2 0x00#8, stepWord 1#1 0b00#2 0x00#8⟩,
     ⟨.synByte, stepWord 0#1 0b00#2 0x00#8, stepWord 1#1 0b11#2 0x00#8⟩,
     ⟨.synEoi, stepWord 0#1 0b01#2 0x00#8, stepWord 1#1 0b11#2 0x00#8⟩,
     ⟨.crcUpdate, stepWord 0#1 0b10#2 0x00#8, stepWord 1#1 0b11#2 0x00#8⟩,
     ⟨.crcInit, stepWord 0#1 0b11#2 0x00#8, stepWord 1#1 0b11#2 0x00#8⟩] := by
  decide

/-- The one row of R41 that a step word with these fields matches. -/
def rowOfFields (rst : BitVec 1) (op : BitVec 2) : TableRow 11 :=
  if rst = 1#1 then ⟨.reset, 0x400#11, 0x400#11⟩
  else if op = 0b00#2 then ⟨.synByte, 0x000#11, 0x700#11⟩
  else if op = 0b01#2 then ⟨.synEoi, 0x100#11, 0x700#11⟩
  else if op = 0b10#2 then ⟨.crcUpdate, 0x200#11, 0x700#11⟩
  else ⟨.crcInit, 0x300#11, 0x700#11⟩

/-- Whether a row of R41 matches depends on `rst` and `op` only, and of the five rows one matches. -/
theorem filter_wordRows_stepWord (rst : BitVec 1) (op : BitVec 2) (data : Byte) :
    wordRows.filter (fun r => r.matches (stepWord rst op data)) = [rowOfFields rst op] := by
  rw [wordRows_eq]
  simp only [List.filter_cons, List.filter_nil, matches_stepWord]
  revert rst op
  decide

/-! ### Frames -/

theorem mnemonic_frameOfDirection (direction flags : Byte) (typeCode : TypeCode) (payload : List Byte) :
    (frameOfDirection direction flags typeCode payload).mnemonic =
      if direction = 0x01#8 then .frameReply else if direction = 0x00#8 then .frameRequest else .frameOther := by
  unfold frameOfDirection
  split
  case isTrue => rfl
  case isFalse => split <;> rfl

theorem encode_frameOfDirection (direction flags : Byte) (typeCode : TypeCode) (payload : List Byte) :
    encode (frameOfDirection direction flags typeCode payload) =
      .burst (frameBytes direction flags typeCode payload) := by
  unfold frameOfDirection
  split
  case isTrue hreply => rw [hreply]; rfl
  case isFalse =>
    split
    case isTrue hrequest => rw [hrequest]; rfl
    case isFalse => rfl

/-- The class that the direction byte picks is well-formed, since `FRAME.OTHER` is left the other directions (R46,
R47). -/
theorem wf_frameOfDirection (direction flags : Byte) (typeCode : TypeCode) {payload : List Byte}
    (h : payload.length ≤ 255) : (frameOfDirection direction flags typeCode payload).wf = true := by
  unfold frameOfDirection
  split
  case isTrue => exact decide_eq_true h
  case isFalse hreply =>
    split
    case isTrue => exact decide_eq_true h
    case isFalse hrequest => simp [Instr.wf, otherDirection, payloadFits, hreply, hrequest, h]

/-- The decoder after the encoder of a frame class (R45, R47). -/
theorem decode_encode_frameOfDirection (direction flags : Byte) (typeCode : TypeCode) {payload : List Byte}
    (h : payload.length ≤ 255) :
    decode (encode (frameOfDirection direction flags typeCode payload)) =
      .ok (frameOfDirection direction flags typeCode payload) := by
  rw [encode_frameOfDirection]
  exact decodeFrame_frameBytes direction flags typeCode payload h

theorem frameOther_eq_frameOfDirection {direction : Byte} (h : otherDirection direction = true) (flags : Byte)
    (typeCode : TypeCode) (payload : List Byte) :
    .frameOther direction flags typeCode payload = frameOfDirection direction flags typeCode payload := by
  simp only [otherDirection, Bool.and_eq_true, bne_iff_ne] at h
  rw [frameOfDirection, if_neg h.2, if_neg h.1]

/-- A Frame decodes to the class of its direction byte, with the fields it is the frame bytes of (R45, R47). -/
theorem exists_decode_of_isFrame {f : List Byte} (h : isFrame f = true) :
    ∃ flags typeCode payload, f = frameBytes (byteAt f 2) flags typeCode payload ∧ payload.length ≤ 255 ∧
      decode (.burst f) = .ok (frameOfDirection (byteAt f 2) flags typeCode payload) := by
  obtain ⟨hbytes, hlen⟩ := eq_frameBytes_of_isFrame f h
  refine ⟨_, _, _, hbytes, ?_, if_pos h⟩
  have := (byteAt f 4).isLt
  omega

theorem decodeFrame_of_not_isFrame {f : List Byte} (h : isFrame f = false) : decodeFrame f = .error .notAFrame := by
  rw [decodeFrame, h]
  rfl

end Sys2Proof.Machine

namespace Sys2Proof.Proofs

open Sys2Proof Sys2Proof.Machine

/-- Settles O8: a step word decodes by the fields it was put together from (`decodeWord_stepWord`), and each frame class
is the one its direction byte picks (`decode_encode_frameOfDirection`). -/
theorem decodeUndoesEncode : Obligations.DecodeUndoesEncode := by
  intro i hwf
  cases i with
  | reset => exact congrArg Except.ok (decodeWord_stepWord _ _ _)
  | synByte d => exact congrArg Except.ok (decodeWord_stepWord _ _ d)
  | synEoi => exact congrArg Except.ok (decodeWord_stepWord _ _ _)
  | crcUpdate d => exact congrArg Except.ok (decodeWord_stepWord _ _ d)
  | crcInit => exact congrArg Except.ok (decodeWord_stepWord _ _ _)
  | frameReply flags typeCode payload =>
    exact decode_encode_frameOfDirection 0x01#8 flags typeCode (of_decide_eq_true hwf)
  | frameRequest flags typeCode payload =>
    exact decode_encode_frameOfDirection 0x00#8 flags typeCode (of_decide_eq_true hwf)
  | frameOther direction flags typeCode payload =>
    obtain ⟨hdirection, hfits⟩ := Bool.and_eq_true_iff.1 hwf
    rw [frameOther_eq_frameOfDirection hdirection]
    exact decode_encode_frameOfDirection direction flags typeCode (of_decide_eq_true hfits)

/-- Settles O9: a Frame is the frame bytes of its fields (`exists_decode_of_isFrame`), which the encoder writes back;
other bytes fail the decoder's test. -/
theorem encodeUndoesDecodeOnFrames : Obligations.EncodeUndoesDecodeOnFrames := by
  refine fun f => ⟨fun hf => ?_, fun hf => ?_⟩
  · obtain ⟨flags, typeCode, payload, hbytes, hlen, hdecode⟩ := exists_decode_of_isFrame hf
    refine ⟨_, hdecode, wf_frameOfDirection _ _ _ hlen, ?_⟩
    rw [encode_frameOfDirection, ← hbytes]
  · have hdecode : decode (.burst f) = .error .notAFrame := decodeFrame_of_not_isFrame hf
    refine ⟨hdecode, fun s rest hinput => ?_⟩
    rw [step, hinput]
    simp only [hdecode]

/-- Settles O10: the rows of R47 and the decoder test the direction byte in the same order (`frameRows_find`,
`mnemonic_frameOfDirection`). -/
theorem frameClassIsTheFirstMatchingRow : Obligations.FrameClassIsTheFirstMatchingRow := by
  intro f hf
  obtain ⟨flags, typeCode, payload, hbytes, -, hdecode⟩ := exists_decode_of_isFrame hf
  have hclass := mnemonic_frameOfDirection (byteAt f 2) flags typeCode payload
  have hrow := frameRows_find f (by rw [hbytes]; rfl) (by rw [hbytes]; rfl)
  refine ⟨_, hdecode, hrow.trans (congrArg some hclass.symm), ?_⟩
  rw [hclass]
  by_cases hreply : byteAt f 2 = 0x01#8
  · simp [messageOf, hreply]
  · by_cases hrequest : byteAt f 2 = 0x00#8
    · simp [messageOf, hrequest]
    · simp [messageOf, hreply, hrequest]

/-- Settles O5: a step word is its three fields; the rows and the decoder test `rst` and `op` alike
(`filter_wordRows_stepWord`, `decodeWord_stepWord`). -/
theorem everyStepWordMatchesOneRow : Obligations.EveryStepWordMatchesOneRow := by
  intro sw
  have hdata : sw.extractLsb' 0 8 = fieldData sw := rfl
  refine ⟨rowOfFields (fieldRst sw) (fieldOp sw), ?_, rfl, ?_⟩
  · rw [← filter_wordRows_stepWord _ _ (fieldData sw), stepWord_fields]
  · rw [hdata, decodeWord, rowOfFields]
    split_ifs <;> simp

/-- Settles O6: these words are step words by their fields (`decodeWord_stepWord`). -/
theorem ignoredBitsAreIgnored : Obligations.IgnoredBitsAreIgnored :=
  ⟨decodeWord_stepWord _ _, decodeWord_stepWord _ _, decodeWord_stepWord _, by decide, by decide, by decide⟩

/-- Settles O7: the step words are evaluated, and each burst is the frame bytes of the fields it is said to hold
(`decodeFrame_frameBytes`). -/
theorem sampleWordsDecode : Obligations.SampleWordsDecode :=
  ⟨by decide, by decide, by decide, by decide, by decide,
    decodeFrame_frameBytes 0x01 0x80 ⟨0xAA, 0xBB, 0xCC⟩ [0x30, 0x23] (by decide),
    decodeFrame_frameBytes 0x00 0x80 ⟨0xAA, 0xBB, 0xCC⟩ [] (by decide),
    decodeFrame_frameBytes 0x02 0x80 ⟨0xAA, 0xBB, 0xCC⟩ [0x5A] (by decide)⟩

end Sys2Proof.Proofs
end

section
/-! The delivery of a whole frame in mode `HUNT` (R57, R74 to R77), and what the parser reports of a frame written from
its fields (R92, R97 to R99). -/

namespace Sys2Proof.Machine

open Sys2Proof

/-! ### Step words -/

/-- In a state that meets R17 every step word goes on (R44, R106). -/
theorem exists_exec_word_of_inv (sw : StepWord) {s : State} (hs : s.inv = true) :
    ∃ t, exec (decodeWord sw) s = .next t := by
  cases hd : decodeWord sw with
  | reset => exact ⟨_, rfl⟩
  | crcInit => exact ⟨_, rfl⟩
  | crcUpdate d => exact ⟨_, rfl⟩
  | synEoi => exact ⟨_, execSynEoi_eq s⟩
  | synByte d =>
    obtain ⟨t, -, ht, -⟩ := execSynByte_of_inv d s hs
    exact ⟨t, ht⟩
  | frameReply flags tc payload => exact absurd hd (decodeWord_not_frame sw flags tc payload).1
  | frameRequest flags tc payload => exact absurd hd (decodeWord_not_frame sw flags tc payload).2.1
  | frameOther direction flags tc payload => exact absurd hd ((decodeWord_not_frame sw flags tc payload).2.2 direction)

/-- The eight pairs of codes of R123. -/
def legalCodes : List (BitVec 2 × BitVec 3) :=
  [(0#2, 0#3), (0#2, 1#3), (0#2, 2#3), (1#2, 0#3), (1#2, 3#3), (2#2, 0#3), (2#2, 4#3), (2#2, 5#3)]

/-- The report of a completed Frame has one of three pairs of codes (R91, R99). -/
theorem parseAndCheck_codes {cfg : Config} {f : List Byte} {o : Slots} (hf : isFrame f = true)
    (ho : parseAndCheck cfg f = some o) : o.codes ∈ [(0#2, 2#3), (1#2, 0#3), (1#2, 3#3)] := by
  rw [parseAndCheck_of_isFrame cfg f hf, Option.some.injEq] at ho
  subst ho
  split
  · exact .head _
  · split
    · exact .tail _ (.head _)
    · exact .tail _ (.tail _ (.head _))

/-- Every move has one of the pairs of codes of R123. -/
theorem WordMove.codes_mem {s : State} {i : Instr} {mode : Mode} {buf : List Byte} {o : Slots}
    (h : WordMove s i mode buf o) : o.codes ∈ legalCodes := by
  cases h with
  | reset | crcInit | crcUpdate | byteAbsorbed | eoiAbsorbed | byteHunted | byteFramed =>
    exact (by decide : (0#2, 0#3) ∈ legalCodes)
  | eoiClean => exact (by decide : (2#2, 0#3) ∈ legalCodes)
  | eoiTruncated => exact (by decide : (2#2, 4#3) ∈ legalCodes)
  | overflowed => exact (by decide : (2#2, 5#3) ∈ legalCodes)
  | markerFound _ _ before =>
    cases before with
    | nil => exact (by decide : (0#2, 0#3) ∈ legalCodes)
    | cons => exact (by decide : (0#2, 1#3) ∈ legalCodes)
  | frameDone _ _ hframe o hreport =>
    have hsub : [(0#2, 2#3), (1#2, 0#3), (1#2, 3#3)] ⊆ legalCodes := by decide
    exact hsub (parseAndCheck_codes hframe hreport)

/-! ### The delivery of a frame -/

/-- A byte `01` completes no marker (R74). -/
theorem endsInMarker_append_marker0 (buf : List Byte) : endsInMarker (buf ++ [marker0]) = false := by
  rw [endsInMarker_append]
  exact Bool.and_false _

/-- The two marker bytes in mode `HUNT`, with room for the first: it is stored, and the second begins a frame and reports
what `buf` held (R74, R75). -/
theorem stream_marker {s : State} (hmode : s.mode = .hunt)
    (hroom : capExceeded s.cfg.bufCap (s.buf.length + 1) = false) :
    stream marker s = .next { s with
      mode := .frame, buf := marker
      trace := s.trace ++ [⟨none, none⟩, ⟨none, if s.buf = [] then none else some (.spurious s.buf)⟩] } := by
  have hfirst := exec_of_wordMove (.byteHunted marker0 hmode (endsInMarker_append_marker0 s.buf) hroom)
  have hsecond := exec_of_wordMove (.markerFound
    (s := s.withBlock ⟨.hunt, s.buf ++ [marker0], crcAfter (.synByte marker0) s.crc⟩ ⟨none, none⟩)
    marker1 rfl s.buf (by simp [marker]))
  simp only [exec] at hfirst hsecond
  rw [marker, stream, hfirst, andThen_next, stream, hsecond, andThen_next, stream]
  simp [State.withBlock, crcAfter, marker]

/-- A frame taken apart for its delivery: the marker, the bytes that are stored, and the byte that completes it. -/
theorem exists_frameBytes_eq (direction flags : Byte) (typeCode : TypeCode) (payload : List Byte) :
    ∃ body last, frameBytes direction flags typeCode payload = marker ++ body ++ [last] ∧
      body.length = 5 + payload.length := by
  obtain hnil | ⟨body, last, hrest⟩ :=
    List.eq_nil_or_concat' ((frameBytes direction flags typeCode payload).drop marker.length)
  · have := congrArg List.length hnil
    simp [marker] at this
    omega
  · have hbytes : frameBytes direction flags typeCode payload = marker ++ body ++ [last] := by
      rw [List.append_assoc, ← hrest]
      rfl
    have hlen := congrArg List.length hbytes
    simp [marker] at hlen
    exact ⟨body, last, hbytes, by omega⟩

/-- The delivery of a whole frame in mode `HUNT`: behind the marker every byte is stored, and the last one hands the frame
to the parser (R74 to R77). -/
theorem stream_frameBytes {s : State} {direction flags : Byte} {typeCode : TypeCode} {payload : List Byte} {o : Slots}
    (hmode : s.mode = .hunt) (hroom : capExceeded s.cfg.bufCap (s.buf.length + 1) = false)
    (hfits : payload.length ≤ 255)
    (hreport : parseAndCheck s.cfg (frameBytes direction flags typeCode payload) = some o) :
    stream (frameBytes direction flags typeCode payload) s = .next (s.afterFrame payload.length o) := by
  have hframe := isFrame_frameBytes direction flags typeCode payload hfits
  obtain ⟨body, last, hbytes, hlen⟩ := exists_frameBytes_eq direction flags typeCode payload
  have hpart : ∀ k, k < body.length → frameComplete (marker ++ body.take (k + 1)) = false := by
    intro k _
    refine frameComplete_of_append_ne_nil direction flags typeCode payload hfits _
      (body.drop (k + 1) ++ [last]) ?_ (by simp)
    rw [hbytes, ← List.append_assoc, List.append_assoc marker, List.take_append_drop]
  rw [hbytes] at hreport hframe ⊢
  rw [stream_append, stream_append, stream_marker hmode hroom, andThen_next, stream_of_incomplete body _ rfl hpart,
    andThen_next, stream, execSynByte_frame _ _ rfl, frameByte_eq, if_pos (frameComplete_of_isFrame _ hframe)]
  simp only [hreport, andThen_next, stream, hlen]
  rfl

/-! ### The report of a frame written from its fields -/

section

variable {cfg : Config} {direction flags : Byte} {typeCode : TypeCode} {id : BytePair} {subindex : Byte}
  {data : List Byte} {trailer : BytePair}

/-- The length byte of a frame with up to 250 data bytes, as a number (R45, R57). -/
theorem byteAt_length_frameBytes_toNat (hdata : data.length ≤ 250) :
    (byteAt (frameBytes direction flags typeCode (framePayload id subindex data trailer)) 4).toNat =
      5 + data.length := by
  rw [byteAt_length_frameBytes, BitVec.toNat_ofNat, Nat.mod_eq_of_lt (by omega)]

/-- The checksum of a frame is that of the bytes `FRAME.CK` covers (R57, R67). -/
theorem frameCrc_frameBytes (hdata : data.length ≤ 250) :
    frameCrc (frameBytes direction flags typeCode (framePayload id subindex data trailer)) =
      checksum16 (coveredBytes direction flags typeCode id subindex data) := by
  have hdrop : (frameBytes direction flags typeCode (framePayload id subindex data trailer)).drop 2 =
      coveredBytes direction flags typeCode id subindex data ++ trailer.bytes := by
    rw [frameBytes, framePayload_length]
    simp [coveredBytes, framePayload, TypeCode.bytes, BytePair.bytes, minPayload]
  have hlen : 5 + (5 + data.length) + 1 - 2 = (coveredBytes direction flags typeCode id subindex data).length := by
    simp [coveredBytes, TypeCode.bytes, BytePair.bytes]
    omega
  rw [frameCrc, byteAt_length_frameBytes_toNat hdata, slice, hdrop, hlen, List.take_left]

theorem parseAndCheck_frameBytes (hdata : data.length ≤ 250) :
    parseAndCheck cfg (frameBytes direction flags typeCode (framePayload id subindex data trailer)) =
      some (reportOf cfg (direction == 0x01#8) direction flags typeCode id subindex data trailer) := by
  rw [parseAndCheck_of_isFrame cfg _ (isFrame_frameBytes _ _ _ _ (by rw [framePayload_length]; omega)),
    if_neg (by rw [byteAt_length_frameBytes_toNat hdata]; omega), messageOf_frameBytes (hdata := hdata),
    frameCrc_frameBytes hdata]
  rfl

theorem parseAndCheck_frameBytes_short {payload : List Byte} (hshort : payload.length < 5) :
    parseAndCheck cfg (frameBytes direction flags typeCode payload) =
      some ⟨none, some (.tooShort (frameBytes direction flags typeCode payload))⟩ := by
  have hlen : (byteAt (frameBytes direction flags typeCode payload) 4).toNat < 5 := by
    show (BitVec.ofNat 8 payload.length).toNat < 5
    rw [BitVec.toNat_ofNat]
    omega
  rw [parseAndCheck_of_isFrame cfg _ (isFrame_frameBytes _ _ _ _ (by omega)), if_pos hlen]

variable (cfg direction flags typeCode id subindex data) in
/-- With the trailer of `FRAME.CK` the report is a `MSG` with `crc_ok = 1` alone (R57, R98). -/
theorem reportOf_goodTrailer (isReply : Bool) :
    ∃ m c, reportOf cfg isReply direction flags typeCode id subindex data
        (goodTrailer cfg (checksum16 (coveredBytes direction flags typeCode id subindex data))) =
          ⟨some (.msg m c true), none⟩ ∧
      m.data = data ∧ m.datapointId = id ∧ m.isReply = isReply :=
  ⟨_, _, if_pos (trailerValue_goodTrailer cfg _ _ rfl).symm, rfl, rfl, rfl⟩

end

/-- A frame with `L >= 5` delivered in mode `HUNT` is reported (R57, R92, R98, R99). -/
theorem stream_frameBytes_reportOf {s : State} (direction flags : Byte) (typeCode : TypeCode) (id : BytePair)
    (subindex : Byte) {data : List Byte} (trailer : BytePair) (hmode : s.mode = .hunt)
    (hroom : capExceeded s.cfg.bufCap (s.buf.length + 1) = false) (hdata : data.length ≤ 250) :
    stream (frameBytes direction flags typeCode (framePayload id subindex data trailer)) s =
      .next (s.afterFrame (5 + data.length)
        (reportOf s.cfg (direction == 0x01#8) direction flags typeCode id subindex data trailer)) := by
  rw [stream_frameBytes hmode hroom (by rw [framePayload_length]; omega) (parseAndCheck_frameBytes hdata),
    framePayload_length]

/-- A frame with `L < 5` delivered in mode `HUNT` is reported as `TOO_SHORT` (R52, R91, R115). -/
theorem stream_frameBytes_tooShort {s : State} (direction flags : Byte) (typeCode : TypeCode) {payload : List Byte}
    (hmode : s.mode = .hunt) (hroom : capExceeded s.cfg.bufCap (s.buf.length + 1) = false)
    (hshort : payload.length < 5) :
    stream (frameBytes direction flags typeCode payload) s =
      .next (s.afterFrame payload.length
        ⟨none, some (.tooShort (frameBytes direction flags typeCode payload))⟩) :=
  stream_frameBytes hmode hroom (by omega) (parseAndCheck_frameBytes_short hshort)

end Sys2Proof.Machine

namespace Sys2Proof.Proofs

open Sys2Proof Sys2Proof.Machine

/-- Settles O38: each class delivers the bytes of its direction, and the parser's report on them is `reportOf`
(`stream_frameBytes_reportOf`). -/
theorem deliveredFrameIsReported : Obligations.DeliveredFrameIsReported := by
  intro s flags typeCode id subindex data trailer hmode hroom hdata payload
  refine ⟨stream_frameBytes_reportOf 0x01#8 flags typeCode id subindex trailer hmode hroom hdata,
    stream_frameBytes_reportOf 0x00#8 flags typeCode id subindex trailer hmode hroom hdata,
    fun direction _ hreply => ?_⟩
  rw [← beq_false_of_ne hreply]
  exact stream_frameBytes_reportOf direction flags typeCode id subindex trailer hmode hroom hdata

/-- Settles O39: each class delivers the bytes of its direction, which are too short for a Message
(`stream_frameBytes_tooShort`). -/
theorem deliveredShortFrameIsSkipped : Obligations.DeliveredShortFrameIsSkipped :=
  fun _ flags typeCode _ hmode hroom hshort =>
    ⟨stream_frameBytes_tooShort 0x01#8 flags typeCode hmode hroom hshort,
      stream_frameBytes_tooShort 0x00#8 flags typeCode hmode hroom hshort,
      fun direction => stream_frameBytes_tooShort direction flags typeCode hmode hroom hshort⟩

/-- Settles O41: the run of a `STREAM` program is the delivery of its bytes (`runWords_streamProgram`), and so is the
meaning of a frame class (`exec_frameOfDirection`). -/
theorem frameIsItsExpansion : Obligations.FrameIsItsExpansion := by
  intro s direction flags typeCode payload i
  rw [runProgram_eq, runWords_streamProgram, exec_frameOfDirection]

/-- Settles O42: the frame of `FRAME.CK` is delivered and reported (`stream_frameBytes_reportOf`), and its trailer passes
the check (`reportOf_goodTrailer`). -/
theorem checkedFramePasses : Obligations.CheckedFramePasses := by
  intro s direction flags typeCode id subindex data hmode hroom hdata
  obtain ⟨m, c, hreport, hm⟩ :=
    reportOf_goodTrailer s.cfg direction flags typeCode id subindex data (direction == 0x01#8)
  rw [runProgram_eq, frameCkProgram, runWords_streamProgram, checkedPayload,
    stream_frameBytes_reportOf _ _ _ _ _ _ hmode hroom hdata, hreport]
  exact ⟨_, m, c, rfl, rfl, rfl, List.getLast?_concat, hm⟩

/-- Settles O48: under R17 every step word goes on (`exists_exec_word_of_inv`), and its move is all that changes
(`wordMove_of_exec`). -/
theorem everyStepWordCompletes : Obligations.EveryStepWordCompletes := by
  intro s sw rest hs hinput
  obtain ⟨t, ht⟩ := exists_exec_word_of_inv sw ((takeInput_inv s rest).trans hs)
  obtain ⟨o, -, -, htrace, hcfg, hrest⟩ := wordMove_of_exec _ t sw ht
  refine ⟨t, o, ?_, hcfg, hrest, htrace⟩
  rw [step, hinput]
  exact ht

/-- Settles O52: the codes are read off, and each move of a step word has one of the eight pairs
(`WordMove.codes_mem`). -/
theorem eventCodesAreTheTables : Obligations.EventCodesAreTheTables := by
  refine ⟨fun _ _ _ => rfl, fun _ => rfl, fun _ => ⟨rfl, rfl⟩, fun _ => ⟨rfl, rfl⟩, fun _ _ => ⟨rfl, rfl⟩,
    fun _ => ⟨rfl, rfl⟩, fun _ _ => ⟨rfl, rfl⟩, rfl, fun _ => rfl, fun _ => rfl, fun _ _ => rfl, fun s t sw h => ?_⟩
  obtain ⟨o, hmove, -, htrace, -, -⟩ := wordMove_of_exec s t sw h
  exact ⟨o, htrace, hmove.codes_mem⟩

end Sys2Proof.Proofs
end

section
/-! The register `crc` under every instruction and along a run of step words (R13, R63 to R66). -/

namespace Sys2Proof.Machine

open Sys2Proof

/-- Every instruction that goes on writes `crc` as `crcAfter` says, the frame classes included (R13). -/
theorem exec_crc {i : Instr} {s t : State} (h : exec i s = .next t) : t.crc = crcAfter i s.crc := by
  cases i with
  | reset | crcInit | crcUpdate => cases h; rfl
  | synByte d => exact execSynByte_crc d s t h
  | synEoi =>
    rw [exec, execSynEoi_eq] at h
    cases h
    rfl
  | frameReply | frameRequest | frameOther => exact stream_crc _ s t h

/-- The checksum of a sequence with one byte more (R63). -/
theorem checksum16_concat (bytes : List Byte) (b : Byte) :
    checksum16 (bytes ++ [b]) = crcUpdate (checksum16 bytes) b := by
  rw [checksum16_append]
  rfl

/-- An instruction that does not initialise the register folds in the operand it has, if it is a `CRC.UPDATE` (R66). -/
theorem crcAfter_checksum16 {i : Instr} (hinit : i ≠ .crcInit) (hreset : i ≠ .reset) (folded : List Byte) :
    crcAfter i (checksum16 folded) = checksum16 (folded ++ (crcOperand i).toList) := by
  cases i with
  | reset => exact absurd rfl hreset
  | crcInit => exact absurd rfl hinit
  | crcUpdate d => exact (checksum16_concat folded d).symm
  | synByte | synEoi | frameReply | frameRequest | frameOther => exact congrArg checksum16 (List.append_nil folded).symm

/-- `CRC.INIT` and `RESET` leave the checksum of nothing (R64, R105). -/
theorem crcAfter_of_initialises {i : Instr} (h : i = .crcInit ∨ i = .reset) (c : Word16) :
    crcAfter i c = checksum16 [] := by
  obtain rfl | rfl := h <;> rfl

theorem crcOperands_cons (sw : StepWord) (program : List StepWord) :
    crcOperands (sw :: program) = (crcOperand (decodeWord sw)).toList ++ crcOperands program := by
  rw [crcOperands, List.filterMap_cons]
  cases crcOperand (decodeWord sw) <;> rfl

/-- Under R17 a run that does not initialise the register completes, and folds in the operands of its `CRC.UPDATE`
commands in order (R66). -/
theorem exists_runWords_checksum16 {program : List StepWord} {s : State} {folded : List Byte} (hs : s.inv = true)
    (hcrc : s.crc = checksum16 folded)
    (hprogram : ∀ sw ∈ program, decodeWord sw ≠ .crcInit ∧ decodeWord sw ≠ .reset) :
    ∃ t, runWords s program = .next t ∧ t.crc = checksum16 (folded ++ crcOperands program) := by
  induction program generalizing s folded with
  | nil => exact ⟨s, rfl, by rw [hcrc, crcOperands, List.filterMap_nil, List.append_nil]⟩
  | cons sw program ih =>
    obtain ⟨⟨hinit, hreset⟩, hothers⟩ := List.forall_mem_cons.1 hprogram
    obtain ⟨u, hword⟩ := exists_exec_word_of_inv sw hs
    have hu : u.crc = checksum16 (folded ++ (crcOperand (decodeWord sw)).toList) := by
      rw [exec_crc hword, hcrc, crcAfter_checksum16 hinit hreset]
    obtain ⟨t, hrest, ht⟩ := ih (exec_word_inv hs hword) hu hothers
    refine ⟨t, ?_, ?_⟩
    · rw [runWords, hword, andThen_next, hrest]
    · rw [ht, crcOperands_cons, List.append_assoc]

end Sys2Proof.Machine

namespace Sys2Proof.Proofs

open Sys2Proof Sys2Proof.Machine

/-- Settles O54: a step is the meaning of its decoded input (O11), and every meaning writes `crc` as `crcAfter` says
(`exec_crc`), which folds in the operand (`crcAfter_checksum16`). -/
theorem everyStepFoldsTheChecksum : Obligations.EveryStepFoldsTheChecksum := by
  intro s t x rest i folded hinput hdecode hfolded hstep
  rw [stepRunsTheDecodedInstruction s x rest i hinput hdecode] at hstep
  have hcrc : t.crc = crcAfter i (checksum16 folded) := (exec_crc hstep).trans (congrArg (crcAfter i) hfolded)
  rw [hcrc]
  exact ⟨fun h => crcAfter_of_initialises h _, fun hinit hreset => crcAfter_checksum16 hinit hreset folded⟩

/-- Settles O20: the opening command leaves the checksum of nothing (`crcAfter_of_initialises`), and the rest of the run
folds its operands in (`exists_runWords_checksum16`). -/
theorem registerComputesTheChecksum : Obligations.RegisterComputesTheChecksum := by
  intro s first program hs hfirst hprogram
  obtain ⟨u, hword⟩ := exists_exec_word_of_inv first hs
  have hu : u.crc = checksum16 [] := (exec_crc hword).trans (crcAfter_of_initialises hfirst _)
  obtain ⟨t, hrest, ht⟩ := exists_runWords_checksum16 (exec_word_inv hs hword) hu hprogram
  exact ⟨t, by rw [runProgram_eq, runWords, hword, andThen_next, hrest], ht⟩

end Sys2Proof.Proofs
end

section
/-! The laws of `crc_bit` and `crc_update` (R60 to R65, R69), and the bytes that a frame's checksum covers (R67). -/

namespace Sys2Proof.Machine

open Sys2Proof

/-! ### One iteration -/

/-- The bit shifted out becomes bit 15, since bit 15 of `CRC_XOR` is set (R60). -/
theorem getLsbD_crcBit_fifteen (c : Word16) : (crcBit c).getLsbD 15 = c.getLsbD 0 := by
  have hshift : (c >>> 1).getLsbD 15 = false := by
    rw [BitVec.getLsbD_ushiftRight]
    exact BitVec.getLsbD_of_ge c _ (by decide)
  rw [crcBit_eq, BitVec.getLsbD_xor, hshift, Bool.false_xor]
  cases c.getLsbD 0 <;> rfl

/-- An iteration on a register with bit 0 clear is a shift (R60). -/
theorem crcBit_of_getLsbD_zero {c : Word16} (h : c.getLsbD 0 = false) : crcBit c = c >>> 1 := by
  rw [crcBit, h]
  rfl

/-- An iteration is linear over XOR: the shift is, and so is the choice of the mask by one bit (R69 item 3). -/
theorem crcBit_xor (x y : Word16) : crcBit (x ^^^ y) = crcBit x ^^^ crcBit y := by
  have hmask : (if (x ^^^ y).getLsbD 0 then crcXor else 0#16) =
      (if x.getLsbD 0 then crcXor else 0#16) ^^^ (if y.getLsbD 0 then crcXor else 0#16) := by
    rw [BitVec.getLsbD_xor]
    cases x.getLsbD 0 <;> cases y.getLsbD 0 <;> rfl
  rw [crcBit_eq, crcBit_eq x, crcBit_eq y, hmask, BitVec.ushiftRight_xor_distrib]
  ac_rfl

/-- The bit shifted out is kept in bit 15 and the other bits are the rest, so nothing is lost (R69 item 6). -/
theorem crcBit_injective : Function.Injective crcBit := by
  intro x y h
  have hbit : x.getLsbD 0 = y.getLsbD 0 := by rw [← getLsbD_crcBit_fifteen, h, getLsbD_crcBit_fifteen]
  have hshift : x >>> 1 = y >>> 1 := by
    rw [crcBit_eq, crcBit_eq y, hbit] at h
    exact (BitVec.xor_left_inj _).1 h
  apply BitVec.eq_of_getLsbD_eq
  intro i _
  cases i with
  | zero => exact hbit
  | succ i => simpa [Nat.add_comm 1] using congrArg (fun c : Word16 => c.getLsbD i) hshift

/-! ### Several iterations -/

theorem crcBits_eq_iterate (n : Nat) : crcBits n = crcBit^[n] := by
  induction n with
  | zero => rfl
  | succ n ih =>
    funext c
    rw [crcBits_succ, ih, Function.iterate_succ_apply]

theorem crcBits_xor (n : Nat) (x y : Word16) : crcBits n (x ^^^ y) = crcBits n x ^^^ crcBits n y := by
  induction n generalizing x y with
  | zero => rfl
  | succ n ih => rw [crcBits_succ, crcBit_xor, ih, crcBits_succ, crcBits_succ]

/-- As long as the bits that leave the register are clear, the iterations are a shift (R60). -/
theorem crcBits_of_low_bits_clear {n : Nat} {c : Word16} (h : ∀ i < n, c.getLsbD i = false) :
    crcBits n c = c >>> n := by
  induction n generalizing c with
  | zero => simp
  | succ n ih =>
    have hclear : ∀ i < n, (c >>> 1).getLsbD i = false := by
      intro i hlt
      rw [BitVec.getLsbD_ushiftRight]
      exact h (1 + i) (by omega)
    rw [crcBits_succ, crcBit_of_getLsbD_zero (h 0 (by omega)), ih hclear, ← BitVec.shiftRight_add, Nat.add_comm]

/-! ### One byte -/

@[simp] theorem zext16_zero : zext16 0x00#8 = 0x0000#16 := rfl

theorem crcUpdate_xor (c1 c2 : Word16) (b1 b2 : Byte) :
    crcUpdate (c1 ^^^ c2) (b1 ^^^ b2) = crcUpdate c1 b1 ^^^ crcUpdate c2 b2 := by
  rw [crcUpdate, crcUpdate, crcUpdate, ← crcBits_xor, zext16_xor]
  congr 1
  ac_rfl

/-- The byte and the register enter as their XOR alone (R69 item 3). -/
theorem crcUpdate_eq_xor_zero (c : Word16) (b : Byte) : crcUpdate c b = crcUpdate (c ^^^ zext16 b) 0x00#8 := by
  rw [crcUpdate, crcUpdate, zext16_zero, BitVec.xor_zero]

theorem crcUpdate_zero_zero : crcUpdate 0x0000#16 0x00#8 = 0x0000#16 := rfl

/-- A register with its low byte clear is shifted down by the byte zero (R69 item 4). -/
theorem crcUpdate_of_lo_clear (h : Byte) : crcUpdate (w16 0x00#8 h) 0x00#8 = zext16 h := by
  have hclear : ∀ i < 8, (w16 0x00#8 h).getLsbD i = false := by
    intro i hlt
    rw [getLsbD_w16, if_pos hlt, BitVec.getLsbD_zero]
  rw [crcUpdate, zext16_zero, BitVec.xor_zero, crcBits_of_low_bits_clear hclear, shiftRight_eight, hi_w16]

/-- The register taken apart into its bytes: the high byte is shifted down, and the feedback comes from the low byte and
the byte folded in (R69 item 4). -/
theorem crcUpdate_eq_table (c : Word16) (b : Byte) : crcUpdate c b = zext16 (hi c) ^^^ crcTable (b ^^^ lo c) := by
  have hsplit : c ^^^ zext16 b = w16 0x00#8 (hi c) ^^^ (0#16 ^^^ zext16 (b ^^^ lo c)) := by
    conv => lhs; rw [← w16_lo_hi c, w16_eq_xor]
    rw [zext16_xor, BitVec.zero_xor]
    ac_rfl
  calc crcUpdate c b
      = crcUpdate (w16 0x00#8 (hi c) ^^^ (0#16 ^^^ zext16 (b ^^^ lo c))) (0x00#8 ^^^ 0x00#8) := by
        rw [crcUpdate_eq_xor_zero, hsplit, BitVec.xor_self]
    _ = crcUpdate (w16 0x00#8 (hi c)) 0x00#8 ^^^ crcUpdate (0#16 ^^^ zext16 (b ^^^ lo c)) 0x00#8 :=
        crcUpdate_xor _ _ _ _
    _ = zext16 (hi c) ^^^ crcTable (b ^^^ lo c) := by
        rw [crcUpdate_of_lo_clear, crcTable, ← crcUpdate_eq_xor_zero]

/-- Folding in the low byte of the register cancels the feedback (R69 item 5). -/
theorem crcUpdate_lo (c : Word16) : crcUpdate c (lo c) = zext16 (hi c) := by
  rw [crcUpdate_eq_table, BitVec.xor_self, crcTable, crcUpdate_zero_zero, BitVec.xor_zero]

/-- The low byte and then the high byte of the register bring it to zero (R69 item 5). -/
theorem crcUpdate_lo_hi (c : Word16) : crcUpdate (crcUpdate c (lo c)) (hi c) = 0x0000#16 := by
  rw [crcUpdate_lo, crcUpdate_eq_xor_zero, BitVec.xor_self, crcUpdate_zero_zero]

theorem crcUpdate_injective (b : Byte) : Function.Injective fun c : Word16 => crcUpdate c b := by
  intro x y h
  have hbits : Function.Injective (crcBits 8) := crcBits_eq_iterate 8 ▸ crcBit_injective.iterate 8
  exact (BitVec.xor_left_inj _).1 (hbits h)

/-! ### The fixed points for the byte zero -/

theorem lo_xor (x y : Word16) : lo (x ^^^ y) = lo x ^^^ lo y := BitVec.extractLsb'_xor

theorem hi_xor (x y : Word16) : hi (x ^^^ y) = hi x ^^^ hi y := BitVec.extractLsb'_xor

/-- A zero-extended byte is the word with high byte zero (R8). -/
theorem zext16_eq_w16 (b : Byte) : zext16 b = w16 b 0x00#8 := by
  have hzero : w16 0x00#8 0x00#8 = 0#16 := rfl
  rw [w16_eq_xor, hzero, BitVec.zero_xor]

/-- The two bytes of a table entry have the XOR that the index has at two indices only. -/
theorem eq_zero_or_one_of_crcTable :
    ∀ l : Byte, hi (crcTable l) ^^^ lo (crcTable l) = l → l = 0x00#8 ∨ l = 0x01#8 := by
  decide

/-- At a fixed point the high byte is that of the table entry of the low byte, which leaves two low bytes (R65). -/
theorem crcUpdate_zero_eq_self_iff (c : Word16) : crcUpdate c 0x00#8 = c ↔ c = 0x0000#16 ∨ c = 0xC001#16 := by
  constructor
  · intro h
    rw [crcUpdate_eq_table, BitVec.zero_xor, zext16_eq_w16] at h
    have hhi : hi (crcTable (lo c)) = hi c := by simpa [hi_xor] using congrArg hi h
    have hlo : hi c ^^^ lo (crcTable (lo c)) = lo c := by simpa [lo_xor] using congrArg lo h
    rw [← w16_lo_hi c, ← hhi]
    obtain hl | hl := eq_zero_or_one_of_crcTable (lo c) (by rw [hhi, hlo])
    · rw [hl]
      exact .inl rfl
    · rw [hl]
      exact .inr rfl
  · rintro (rfl | rfl) <;> rfl

/-! ### The bytes a frame's checksum covers -/

/-- A Frame is its marker and what stands behind it (R45). -/
theorem eq_marker_append_of_isFrame {f : List Byte} (h : isFrame f = true) : f = marker ++ f.drop 2 := by
  obtain ⟨dir, flags, len, t0, t1, t2, payload, rfl, -⟩ := (isFrame_iff f).1 h
  rfl

theorem length_of_isFrame {f : List Byte} (h : isFrame f = true) : f.length = 8 + (byteAt f 4).toNat := by
  obtain ⟨dir, flags, len, t0, t1, t2, payload, rfl, hlen⟩ := (isFrame_iff f).1 h
  have hbyte : byteAt (marker0 :: marker1 :: dir :: flags :: len :: t0 :: t1 :: t2 :: payload) 4 = len := rfl
  rw [hbyte, ← hlen]
  simp only [List.length_cons]
  omega

end Sys2Proof.Machine

namespace Sys2Proof.Proofs

open Sys2Proof Sys2Proof.Machine

/-- Settles O15: `crc_update` is an iterate of `crc_bit` (`crcBits_eq_iterate`); its fixed points for the byte zero are
found from the low byte (`crcUpdate_zero_eq_self_iff`). -/
theorem crcUpdateFoldsOneByte : Obligations.CrcUpdateFoldsOneByte := by
  refine ⟨fun c d => ?_, rfl, by decide, decodeWord_stepWord 0#1 0b10#2, fun _ _ => rfl, crcUpdate_zero_eq_self_iff,
    rfl, rfl⟩
  rw [crcUpdate, crcBits_eq_iterate]

/-- Settles O16: one iteration is linear (`crcBit_xor`), and so are eight of them with the XOR before. -/
theorem crcUpdateIsLinear : Obligations.CrcUpdateIsLinear :=
  ⟨crcBit_xor, crcUpdate_xor, crcUpdate_zero_zero, crcUpdate_eq_xor_zero⟩

/-- Settles O17: by linearity the high byte is only shifted down, and the low byte selects the table entry
(`crcUpdate_eq_table`). -/
theorem crcUpdateByTable : Obligations.CrcUpdateByTable := by
  intro c b
  have htable : crcUpdate c b = (c >>> 8) ^^^ crcTable (b ^^^ lo c) := by
    rw [shiftRight_eight, crcUpdate_eq_table]
  exact ⟨htable, shiftRight_eight c, htable⟩

/-- Settles O18: the fold goes on with the two bytes of the register itself, which cancel it (`crcUpdate_lo_hi`). -/
theorem checksumResidueIsZero : Obligations.ChecksumResidueIsZero := by
  refine ⟨fun s => ?_, by decide +kernel⟩
  rw [checksum16_append]
  exact crcUpdate_lo_hi (checksum16 s)

/-- Settles O19: no two register values merge (`crcUpdate_injective`), and there are finitely many of them. -/
theorem crcUpdateIsBijective : Obligations.CrcUpdateIsBijective :=
  fun b => (crcUpdate_injective b).bijective_of_finite

/-- Settles O21: the covered bytes are the first `L + 4` behind the marker, and the length of a Frame leaves two more
(`length_of_isFrame`). -/
theorem frameChecksumCoverage : Obligations.FrameChecksumCoverage := by
  refine ⟨fun f hf hlong => ?_, by decide +kernel⟩
  have hlen := length_of_isFrame hf
  refine ⟨(f.drop 2).take ((byteAt f 4).toNat + 4), (f.drop 2).drop ((byteAt f 4).toNat + 4), ?_, ?_, ?_, ?_⟩
  · rw [List.append_assoc, List.take_append_drop]
    exact eq_marker_append_of_isFrame hf
  · rw [List.length_take, List.length_drop]
    omega
  · rw [List.length_drop, List.length_drop]
    omega
  · rw [frameCrc, slice, show 5 + (byteAt f 4).toNat + 1 - 2 = (byteAt f 4).toNat + 4 by omega]

/-- Settles O12: the two branches of `crc_bit`, and the bit shifted out (`getLsbD_crcBit_fifteen`). -/
theorem crcBitShiftsAndFeedsBack : Obligations.CrcBitShiftsAndFeedsBack :=
  ⟨fun _ h => if_pos h, fun _ => crcBit_of_getLsbD_zero, getLsbD_crcBit_fifteen, rfl, rfl⟩

/-- Settles O13: the fold over an appended sequence goes on (`checksum16_append`); the register's nine values are
evaluated. -/
theorem checksumOfTheReferenceString : Obligations.ChecksumOfTheReferenceString :=
  ⟨checksum16_nil, checksum16_concat, checksum16_append, by decide +kernel, rfl⟩

/-- Settles O14: every spelling decodes alike (`decodeWord_stepWord`), and the meaning writes `crc` and closes a silent
step. -/
theorem crcInitSetsTheRegister : Obligations.CrcInitSetsTheRegister :=
  ⟨decodeWord_stepWord 0#1 0b11#2, fun _ => rfl⟩

end Sys2Proof.Proofs
end

section
/-! The rule of `END` (R84): what a move adds to the primary events of a pass, and the rule carried through deliveries,
steps and runs. -/

namespace Sys2Proof.Machine

open Sys2Proof

/-! ### The rule of `END` under one move -/

/-- Outside the terminal modes there is no `END` among the events of a pass (R84). -/
theorem endRule_iff_of_not_terminal {mode : Mode} (h : mode.isTerminal = false) (events : List Prim) :
    endRule mode events ↔ events.all (fun e => !e.isEnd) = true := by
  rw [endRule, h]
  rfl

/-- In a terminal mode the one `END` of the pass is its last event, clean exactly for `DONE` (R84). -/
theorem endRule_iff_of_terminal {mode : Mode} (h : mode.isTerminal = true) (events : List Prim) :
    endRule mode events ↔ ∃ earlier, events = earlier ++ [.endOfPass (mode == .done)] ∧
      earlier.all (fun e => !e.isEnd) = true := by
  rw [endRule, h]
  rfl

/-- Events that are no `END` may stand before those that obey the rule. -/
theorem endRule_append {mode : Mode} {events added : List Prim} (hevents : events.all (fun e => !e.isEnd) = true)
    (hadded : endRule mode added) : endRule mode (events ++ added) := by
  cases hmode : mode.isTerminal with
  | false =>
    rw [endRule_iff_of_not_terminal hmode] at hadded ⊢
    rw [List.all_append, hevents, hadded]
    rfl
  | true =>
    rw [endRule_iff_of_terminal hmode] at hadded ⊢
    obtain ⟨earlier, rfl, hearlier⟩ := hadded
    refine ⟨events ++ earlier, (List.append_assoc ..).symm, ?_⟩
    rw [List.all_append, hevents, hearlier]
    rfl

/-- The report of a completed Frame holds no `END` (R91, R99). -/
theorem parseAndCheck_no_end {cfg : Config} {f : List Byte} {o : Slots} (hf : isFrame f = true)
    (ho : parseAndCheck cfg f = some o) : o.prim.toList.all (fun e => !e.isEnd) = true := by
  rw [parseAndCheck_eq_checked cfg f hf, Option.some.injEq] at ho
  subst ho
  split <;> rfl

/-- Outside the terminal modes the event of a move obeys the rule by itself: it is an `END` exactly when the move enters
a terminal mode (R78, R80, R81). -/
theorem WordMove.endRule_prim {s : State} {i : Instr} {mode : Mode} {buf : List Byte} {o : Slots}
    (h : WordMove s i mode buf o) (hs : s.terminal = false) : endRule mode o.prim.toList := by
  cases h with
  | reset | markerFound | byteHunted | byteFramed => exact rfl
  | crcInit | crcUpdate => exact (endRule_iff_of_not_terminal hs []).2 rfl
  | byteAbsorbed _ hterminal | eoiAbsorbed hterminal => rw [hs] at hterminal; cases hterminal
  | eoiClean | eoiTruncated | overflowed => exact ⟨[], rfl, rfl⟩
  | frameDone _ _ hframe o hreport => exact parseAndCheck_no_end hframe hreport

/-! ### The rule of `END` in the course of a pass -/

/-- The primary events are those `before` the pass, followed by events of the pass that obey the rule of `END` (R84). -/
def ObeysEndRule (before : List Prim) (s : State) : Prop :=
  ∃ events, s.primary = before ++ events ∧ endRule s.mode events

theorem obeysEndRule_of_passStart {s : State} (h : s.passStart = true) : ObeysEndRule [] s := by
  obtain ⟨hmode, -, htrace, -⟩ := (passStart_iff s).1 h
  refine ⟨[], by rw [State.primary, htrace]; rfl, ?_⟩
  rw [hmode]
  rfl

/-- Every step word but `RESET` keeps the rule: in a terminal mode it is silent, elsewhere its own event obeys it. -/
theorem ObeysEndRule.exec_word {before : List Prim} {s t : State} {sw : StepWord} (hs : ObeysEndRule before s)
    (hreset : decodeWord sw ≠ .reset) (h : exec (decodeWord sw) s = .next t) : ObeysEndRule before t := by
  obtain ⟨events, hprimary, hrule⟩ := hs
  obtain ⟨o, hmove, -, htrace, -, -⟩ := wordMove_of_exec s t sw h
  refine ⟨events ++ o.prim.toList, by rw [primary_of_trace s t o htrace, hprimary, List.append_assoc], ?_⟩
  cases hterminal : s.terminal with
  | true =>
    obtain ⟨hmode, -, rfl⟩ := hmove.of_terminal hreset hterminal
    rw [hmode, Option.toList_none, List.append_nil]
    exact hrule
  | false =>
    have hnone := (endRule_iff_of_not_terminal hterminal events).1 hrule
    exact endRule_append hnone (hmove.endRule_prim hterminal)

theorem ObeysEndRule.execSynByte {before : List Prim} {s t : State} {d : Byte} (hs : ObeysEndRule before s)
    (h : execSynByte d s = .next t) : ObeysEndRule before t := by
  refine hs.exec_word (sw := synByteWord d) ?_ ?_ <;> rw [decodeWord_synByteWord]
  · exact Instr.noConfusion
  · exact h

theorem ObeysEndRule.stream {before : List Prim} {bytes : List Byte} {s t : State} (hs : ObeysEndRule before s)
    (h : stream bytes s = .next t) : ObeysEndRule before t := by
  induction bytes generalizing s with
  | nil => cases h; exact hs
  | cons b bytes ih =>
    rw [Machine.stream, andThen_eq_next] at h
    obtain ⟨u, hb, hbytes⟩ := h
    exact ih (hs.execSynByte hb) hbytes

/-- Every input that decodes to another instruction than `RESET` keeps the rule: a step word, or a Frame delivered byte
by byte. -/
theorem ObeysEndRule.exec_decoded {before : List Prim} {s t : State} {x : Input} {i : Instr}
    (hs : ObeysEndRule before s) (hdecode : decode x = .ok i) (hreset : i ≠ .reset) (h : exec i s = .next t) :
    ObeysEndRule before t := by
  cases x with
  | word sw => cases hdecode; exact hs.exec_word hreset h
  | burst f => exact hs.stream (((decodeFrame_eq_ok hdecode).2 s).symm.trans h)

theorem ObeysEndRule.run {before : List Prim} {program : List StepWord} {s t : State} (hs : ObeysEndRule before s)
    (hreset : ∀ sw ∈ program, decodeWord sw ≠ .reset) (h : runWords s program = .next t) : ObeysEndRule before t := by
  induction program generalizing s with
  | nil => cases h; exact hs
  | cons sw program ih =>
    rw [runWords, andThen_eq_next] at h
    obtain ⟨u, hword, hrest⟩ := h
    obtain ⟨hfirst, hothers⟩ := List.forall_mem_cons.1 hreset
    exact ih (hs.exec_word hfirst hword) hothers hrest

/-! ### The ways into a terminal mode -/

/-- A move other than `SYN.EOI` enters a terminal mode by an overflow alone, which an unbounded buffer never has (R78,
R83). -/
theorem WordMove.overflow_of_enters_terminal {s : State} {i : Instr} {mode : Mode} {buf : List Byte} {o : Slots}
    (h : WordMove s i mode buf o) (hi : i ≠ .synEoi) (hs : s.terminal = false) (hmode : mode.isTerminal = true) :
    s.cfg.bufCap ≠ .unbounded ∧ ∃ held dropped, o.diag = some (.overflow held dropped) := by
  cases h with
  | overflowed d _ _ hfull =>
    refine ⟨fun hcap => ?_, s.buf, d, rfl⟩
    rw [hcap] at hfull
    cases hfull
  | crcInit | crcUpdate => exact absurd (hs.symm.trans hmode) Bool.false_ne_true
  | byteAbsorbed _ hterminal => exact absurd (hs.symm.trans hterminal) Bool.false_ne_true
  | eoiAbsorbed | eoiClean | eoiTruncated => exact absurd rfl hi
  | reset | markerFound | byteHunted | byteFramed | frameDone => cases hmode

/-- Diagnostics stay on their channel along a run (R144). -/
theorem mem_diagnostic_of_runWords {program : List StepWord} {s t : State} {x : Diag} (hx : x ∈ s.diagnostic)
    (h : runWords s program = .next t) : x ∈ t.diagnostic := by
  obtain ⟨added, htrace, -, -⟩ := runWords_trace program s t h
  rw [State.diagnostic, htrace, List.filterMap_append]
  exact List.mem_append_left _ hx

/-- A run without `SYN.EOI` reaches a terminal mode by an overflow alone (R78, R83). -/
theorem overflow_of_runWords_terminal {program : List StepWord} {s t : State}
    (heoi : ∀ sw ∈ program, decodeWord sw ≠ .synEoi) (h : runWords s program = .next t) (hs : s.terminal = false)
    (ht : t.terminal = true) :
    s.cfg.bufCap ≠ .unbounded ∧ ∃ held dropped, Diag.overflow held dropped ∈ t.diagnostic := by
  induction program generalizing s with
  | nil => cases h; exact absurd (hs.symm.trans ht) Bool.false_ne_true
  | cons sw program ih =>
    rw [runWords, andThen_eq_next] at h
    obtain ⟨u, hword, hrest⟩ := h
    obtain ⟨hfirst, hothers⟩ := List.forall_mem_cons.1 heoi
    obtain ⟨o, hmove, -, htrace, hcfg, -⟩ := wordMove_of_exec s u sw hword
    cases hu : u.terminal with
    | false => rw [← hcfg]; exact ih hothers hrest hu
    | true =>
      obtain ⟨hcap, held, dropped, ho⟩ := hmove.overflow_of_enters_terminal hfirst hs hu
      refine ⟨hcap, held, dropped, mem_diagnostic_of_runWords ?_ hrest⟩
      rw [State.diagnostic, htrace]
      exact List.mem_filterMap.2 ⟨o, List.mem_append_right _ (List.mem_singleton_self o), ho⟩

end Sys2Proof.Machine

namespace Sys2Proof.Proofs

open Sys2Proof Sys2Proof.Machine

/-- Settles O53: a step is the meaning of its decoded input (O11), and every meaning but `RESET` keeps the rule
(`ObeysEndRule.exec_decoded`); `RESET` is silent and begins a pass. -/
theorem everyStepKeepsTheEndRule : Obligations.EveryStepKeepsTheEndRule := by
  intro s t x rest i before events hinput hdecode hprimary hrule hstep
  rw [stepRunsTheDecodedInstruction s x rest i hinput hdecode] at hstep
  have hs : ObeysEndRule before (s.takeInput rest) := ⟨events, hprimary, hrule⟩
  refine ⟨fun hreset => hs.exec_decoded hdecode hreset hstep, fun hreset => ?_⟩
  rw [hreset] at hstep
  cases hstep
  exact ⟨quiet_primary _, rfl⟩

/-- Settles O30: the rule holds at the start of a pass and along the run (`ObeysEndRule.run`); without `SYN.EOI` only an
overflow leads to a terminal mode (`overflow_of_runWords_terminal`). -/
theorem oneEndEventPerPass : Obligations.OneEndEventPerPass := by
  intro s t program hstart hreset hrun
  rw [runProgram_eq] at hrun
  obtain ⟨events, hprimary, hrule⟩ := (obeysEndRule_of_passStart hstart).run hreset hrun
  rw [List.nil_append] at hprimary
  rw [hprimary]
  refine ⟨fun ht => (endRule_iff_of_terminal ht events).1 hrule,
    fun ht => (endRule_iff_of_not_terminal ht events).1 hrule, fun heoi hroom => Bool.eq_false_iff.2 fun ht => ?_⟩
  obtain ⟨hmode, -, -, -⟩ := (passStart_iff s).1 hstart
  obtain ⟨hcap, held, dropped, hmem⟩ := overflow_of_runWords_terminal heoi hrun (terminal_of_hunt hmode) ht
  obtain hunbounded | hnone := hroom
  · exact hcap hunbounded
  · exact hnone held dropped hmem

end Sys2Proof.Proofs
end

section
/-! The frames that a stream can yield (R86): each takes at least eight bytes out of the buffer. -/

namespace Sys2Proof.Machine

open Sys2Proof

/-- Eight times the frames a move reports, plus the bytes it leaves, are no more than the bytes before it and the
byte of a `SYN.BYTE` (R86). -/
theorem WordMove.bounds_frames {s : State} {i : Instr} {mode : Mode} {buf : List Byte} {o : Slots}
    (h : WordMove s i mode buf o) :
    8 * (if o.isFrameReport then 1 else 0) + buf.length ≤ s.buf.length + (synOperand i).toList.length := by
  cases h with
  | reset | crcInit | crcUpdate | byteAbsorbed | eoiAbsorbed | eoiClean | eoiTruncated | overflowed | byteHunted
  | byteFramed => simp [Slots.isFrameReport, synOperand]
  | markerFound d _ before hbuf =>
    have hlen : s.buf.length + 1 = before.length + marker.length := by simpa using congrArg List.length hbuf
    cases before <;> simp [Slots.isFrameReport, synOperand] <;> omega
  | frameDone d _ hframe =>
    have hlen := length_of_isFrame hframe
    rw [List.length_append, List.length_singleton] at hlen
    simp only [synOperand, Option.toList_some, List.length_singleton, List.length_nil]
    split <;> omega

/-- The bound of R86 for one step word. -/
theorem exec_word_bounds_frames {s t : State} {sw : StepWord} (h : exec (decodeWord sw) s = .next t) :
    8 * t.framesOut + t.buf.length ≤
      8 * s.framesOut + s.buf.length + (synOperand (decodeWord sw)).toList.length := by
  obtain ⟨o, hmove, -, htrace, -, -⟩ := wordMove_of_exec s t sw h
  have hbound := hmove.bounds_frames
  rw [framesOut_of_trace s t o htrace]
  omega

theorem synOperands_cons (sw : StepWord) (program : List StepWord) :
    synOperands (sw :: program) = (synOperand (decodeWord sw)).toList ++ synOperands program := by
  rw [synOperands, List.filterMap_cons]
  cases synOperand (decodeWord sw) <;> rfl

/-- The bound of R86 along a run: every `SYN.BYTE` adds at most one. -/
theorem runWords_bounds_frames {program : List StepWord} {s t : State} (h : runWords s program = .next t) :
    8 * t.framesOut + t.buf.length ≤ 8 * s.framesOut + s.buf.length + (synOperands program).length := by
  induction program generalizing s with
  | nil => cases h; exact Nat.le_add_right _ _
  | cons sw program ih =>
    rw [runWords, andThen_eq_next] at h
    obtain ⟨u, hword, hrest⟩ := h
    calc 8 * t.framesOut + t.buf.length
        ≤ 8 * u.framesOut + u.buf.length + (synOperands program).length := ih hrest
      _ ≤ 8 * s.framesOut + s.buf.length + (synOperand (decodeWord sw)).toList.length +
          (synOperands program).length := Nat.add_le_add_right (exec_word_bounds_frames hword) _
      _ = 8 * s.framesOut + s.buf.length + (synOperands (sw :: program)).length := by
        rw [synOperands_cons, List.length_append, ← Nat.add_assoc]

end Sys2Proof.Machine

namespace Sys2Proof.Proofs

open Sys2Proof Sys2Proof.Machine

/-- Settles O56: a move that reports a frame empties a buffer that the byte fills to eight or more
(`WordMove.bounds_frames`). -/
theorem everyStepBoundsTheFrames : Obligations.EveryStepBoundsTheFrames := fun _ _ _ => exec_word_bounds_frames

/-- Settles O32: a pass starts with no frame and no byte, and every step word keeps the bound
(`runWords_bounds_frames`). -/
theorem atMostOneFrameInEightBytes : Obligations.AtMostOneFrameInEightBytes := by
  intro s t program hstart hrun
  rw [runProgram_eq] at hrun
  have hbound := runWords_bounds_frames hrun
  obtain ⟨-, hbuf, htrace, -⟩ := (passStart_iff s).1 hstart
  have hnone : s.framesOut = 0 := by rw [State.framesOut, htrace]; rfl
  rw [hnone, hbuf, List.length_nil] at hbound
  omega

end Sys2Proof.Proofs
end

section
/-! The synchronizer case by case (R73 to R83): the tests of R74 and R76 as the rules write them, and the meanings of
the step words as the function of R106. -/

namespace Sys2Proof.Machine

open Sys2Proof

/-! ### The tests of the synchronizer -/

/-- A byte completes the marker exactly when it is `00` behind a `01` (R74, R83). -/
theorem endsInMarker_append_iff (buf : List Byte) (d : Byte) :
    endsInMarker (buf ++ [d]) = true ↔ d = marker1 ∧ buf.getLast? = some marker0 := by
  rw [endsInMarker_append, Bool.and_eq_true, beq_iff_eq, beq_iff_eq, and_comm]

theorem endsInMarker_eq_false_iff (b : List Byte) : endsInMarker b = false ↔ ∀ before, b ≠ before ++ marker := by
  rw [← Bool.not_eq_true, endsInMarker_iff, not_exists]

theorem frameComplete_eq_false_iff (b : List Byte) :
    frameComplete b = false ↔ ∀ l : Byte, b[4]? = some l → b.length ≠ 8 + l.toNat := by
  rw [← Bool.not_eq_true, frameComplete_iff]
  simp only [not_exists, not_and]

/-- The capacity test of R74: a finite capacity that `n` bytes exceed. -/
theorem capExceeded_iff {cap : BufCap} {n : Nat} : capExceeded cap n = true ↔ ∃ c, cap = .bounded c ∧ c < n := by
  cases cap <;> simp [capExceeded]

/-- Under R17 there is no room for one byte more exactly when the buffer fills a finite capacity (R78, R83). -/
theorem capExceeded_succ_iff {s : State} (hs : withinCap s.cfg.bufCap s.buf = true) :
    capExceeded s.cfg.bufCap (s.buf.length + 1) = true ↔ s.cfg.bufCap = .bounded s.buf.length :=
  ⟨full_of_capExceeded s hs, fun hfull => capExceeded_iff.2 ⟨_, hfull, Nat.lt_succ_self _⟩⟩

/-- The completion test in the words of R83: the length of a complete frame is at least eight. -/
theorem frameComplete_append_iff (buf : List Byte) (d : Byte) :
    frameComplete (buf ++ [d]) = true ↔
      ∃ l : Byte, (buf ++ [d])[4]? = some l ∧ 8 ≤ buf.length + 1 ∧ buf.length + 1 = 8 + l.toNat := by
  rw [frameComplete_iff, List.length_append, List.length_singleton]
  exact exists_congr fun l => and_congr_right fun _ => ⟨fun hlen => ⟨by omega, hlen⟩, And.right⟩

/-! ### Moves and terminal modes -/

/-- A move that can be made is made, and its mode is the mode after it. -/
theorem WordMove.exists_exec {s : State} {i : Instr} {mode : Mode} {buf : List Byte} {o : Slots}
    (h : WordMove s i mode buf o) : ∃ t, exec i s = .next t ∧ t.mode = mode :=
  ⟨_, exec_of_wordMove h, rfl⟩

theorem terminal_of_done_or_failed {s : State} (h : s.mode = .done ∨ s.mode = .failed) : s.terminal = true := by
  obtain hmode | hmode := h <;> rw [State.terminal, hmode] <;> rfl

/-! ### The function of R106 -/

/-- What a result of the block's function makes of a machine state; without one the model refuses (R90, D16; log 8). -/
def Result.ofBlock (s : State) : Option (Block × Slots) → Result
  | some (b, o) => .next (s.withBlock b o)
  | none => .refused .parseNotAFrame

/-- `SYN.BYTE` is the `SYN.*` row of R106 with the operand's command (R86). -/
theorem execSynByte_eq_synBlockStep (d : Byte) (s : State) :
    execSynByte d s = Result.ofBlock s (synBlockStep s.cfg s.block (.byte d)) := by
  obtain ⟨mode, buf, crc, cfg, input, trace⟩ := s
  cases mode with
  | hunt =>
    have hmarker : endsInMarker (buf ++ [d]) = true ↔ buf.getLast? = some marker0 ∧ d = marker1 :=
      (endsInMarker_append_iff buf d).trans and_comm
    rw [execSynByte_hunt d _ rfl, huntByte_eq, synBlockStep]
    by_cases hfound : buf.getLast? = some marker0 ∧ d = marker1
    · rw [if_pos (hmarker.2 hfound), State.block, synStep, if_pos hfound]
      simp only [List.isEmpty_iff]
      rfl
    · rw [if_neg (mt hmarker.1 hfound), State.block, synStep, if_neg hfound]
      split <;> rfl
  | frame =>
    rw [execSynByte_frame d _ rfl, frameByte_eq, synBlockStep, State.block, synStep]
    split
    · dsimp only
      cases parseAndCheck cfg (buf ++ [d]) <;> rfl
    · rfl
  | done | failed => rfl

/-- `SYN.EOI` is the `SYN.*` row of R106 with the end-of-input command (R86). -/
theorem execSynEoi_eq_synBlockStep (s : State) :
    execSynEoi s = Result.ofBlock s (synBlockStep s.cfg s.block .eoi) := by
  obtain ⟨mode, buf, crc, cfg, input, trace⟩ := s
  cases mode <;> rfl

/-- On every step word the meaning is the function of R106 (R86, R106). -/
theorem exec_decodeWord_eq_blockStep (s : State) (sw : StepWord) :
    exec (decodeWord sw) s = Result.ofBlock s (blockStep s.cfg s.block sw) := by
  rw [decodeWord, blockStep]
  split_ifs
  · rfl
  · exact execSynByte_eq_synBlockStep _ s
  · exact execSynEoi_eq_synBlockStep s
  · rfl
  · rfl

/-- The block's function has a result wherever the machine goes on. -/
theorem isSome_of_ofBlock_eq_next {s t : State} {r : Option (Block × Slots)} (h : Result.ofBlock s r = .next t) :
    r.isSome = true := by
  cases r with
  | none => cases h
  | some => rfl

end Sys2Proof.Machine

namespace Sys2Proof.Proofs

open Sys2Proof Sys2Proof.Machine

/-- Settles O22: the three moves of `SYN.BYTE` in mode `HUNT`, chosen by the marker test and the capacity test
(`huntByte_eq`). -/
theorem huntByteScansForTheMarker : Obligations.HuntByteScansForTheMarker := by
  refine ⟨decodeWord_stepWord 0#1 0b00#2, fun s d hmode =>
    ⟨fun before hbuf => exec_of_wordMove (.markerFound d hmode before hbuf), fun hnone => ?_⟩⟩
  have hmarker : endsInMarker (s.buf ++ [d]) = false := (endsInMarker_eq_false_iff _).2 hnone
  rw [exec, execSynByte_hunt d s hmode, huntByte_eq, hmarker]
  refine ⟨fun hroom => ?_, fun n hcap hfull => ?_⟩
  · have hfits : ¬capExceeded s.cfg.bufCap (s.buf.length + 1) = true := by
      rw [capExceeded_iff]
      rintro ⟨c, hcap, hlt⟩
      obtain hunbounded | ⟨n, hbounded, hle⟩ := hroom
      · exact BufCap.noConfusion (hcap.symm.trans hunbounded)
      · obtain rfl : c = n := BufCap.bounded.inj (hcap.symm.trans hbounded)
        omega
    rw [if_neg hfits]
    rfl
  · rw [if_pos (capExceeded_iff.2 ⟨n, hcap, hfull⟩)]
    rfl

/-- Settles O23: the completion test fails (`frameComplete_eq_false_iff`), so the byte is stored (`frameByte_eq`). -/
theorem frameByteIsStored : Obligations.FrameByteIsStored := by
  intro s d hmode hpart
  rw [exec, execSynByte_frame d s hmode, frameByte_eq, (frameComplete_eq_false_iff _).2 hpart]
  rfl

/-- Settles O24: the completed Frame goes to the parser (`frameByte_eq`), whose report has the three cases
(`parseAndCheck_of_isFrame`). -/
theorem completedFrameIsReported : Obligations.CompletedFrameIsReported := by
  intro s d f hmode hf hframe
  subst hf
  rw [exec, execSynByte_frame d s hmode, frameByte_eq, if_pos (frameComplete_of_isFrame _ hframe),
    parseAndCheck_of_isFrame s.cfg _ hframe]
  refine ⟨fun hshort => ?_, fun hlong hmatch => ?_, fun hlong hmismatch => ?_⟩
  · rw [if_pos hshort]
  · rw [if_neg (Nat.not_lt.2 hlong), if_pos hmatch]
  · rw [if_neg (Nat.not_lt.2 hlong), if_neg hmismatch]

/-- Settles O29: each row of the table is a move of a step word, under R17 with the tests as the table words them
(`endsInMarker_append_iff`, `capExceeded_succ_iff`, `frameComplete_append_iff`). -/
theorem modeTransitionsAreTheTables : Obligations.ModeTransitionsAreTheTables := by
  intro s hs goesTo
  obtain ⟨-, hinv, hcap⟩ := (inv_iff s).1 hs
  refine ⟨WordMove.reset.exists_exec, WordMove.crcInit.exists_exec, fun d => (WordMove.crcUpdate d).exists_exec,
    fun hmode => ⟨(WordMove.eoiClean hmode).exists_exec, fun d => ⟨fun hmarker => ?_, fun hmarker => ?_⟩⟩,
    fun hmode => ⟨(WordMove.eoiTruncated hmode).exists_exec, fun d => ⟨fun hcomplete => ?_, fun hcomplete => ?_⟩⟩,
    fun hmode => ?_⟩
  · obtain ⟨before, hbuf⟩ := (endsInMarker_iff _).1 ((endsInMarker_append_iff s.buf d).2 hmarker)
    exact (WordMove.markerFound d hmode before hbuf).exists_exec
  · have hnone : endsInMarker (s.buf ++ [d]) = false :=
      Bool.eq_false_iff.2 (mt (endsInMarker_append_iff s.buf d).1 hmarker)
    exact ⟨fun hroom =>
        (WordMove.byteHunted d hmode hnone (Bool.eq_false_iff.2 (mt (capExceeded_succ_iff hcap).1 hroom))).exists_exec,
      fun hfull => (WordMove.overflowed d hmode hnone ((capExceeded_succ_iff hcap).2 hfull)).exists_exec⟩
  · rw [hmode] at hinv
    have hframe := isFrame_of_framePart s.buf d hinv ((frameComplete_append_iff s.buf d).2 hcomplete)
    exact (WordMove.frameDone d hmode hframe _ (parseAndCheck_of_isFrame s.cfg _ hframe)).exists_exec
  · exact (WordMove.byteFramed d hmode
      (Bool.eq_false_iff.2 (mt (frameComplete_append_iff s.buf d).1 hcomplete))).exists_exec
  · have hterminal := terminal_of_done_or_failed hmode
    exact ⟨(WordMove.eoiAbsorbed hterminal).exists_exec, fun d => (WordMove.byteAbsorbed d hterminal).exists_exec⟩

/-- Settles O43: the two agree on every step word (`exec_decodeWord_eq_blockStep`), and under R17 the machine goes on
(`exists_exec_word_of_inv`). -/
theorem meaningsAreTheBlockFunction : Obligations.MeaningsAreTheBlockFunction := by
  intro s sw
  have hexec := exec_decodeWord_eq_blockStep s sw
  refine ⟨hexec, fun hs => ?_⟩
  obtain ⟨t, ht⟩ := exists_exec_word_of_inv sw hs
  exact isSome_of_ofBlock_eq_next (hexec.symm.trans ht)

/-- Settles O26: every spelling decodes alike (`decodeWord_stepWord`), and the mode decides (`execSynEoi_eq`). -/
theorem endOfInputAtAFrameBoundary : Obligations.EndOfInputAtAFrameBoundary :=
  ⟨decodeWord_stepWord 0#1 0b01#2, fun _ hmode => exec_of_wordMove (.eoiClean hmode)⟩

/-- Settles O27: the move of a truncated frame (`exec_of_wordMove`). -/
theorem endOfInputInsideAFrame : Obligations.EndOfInputInsideAFrame :=
  fun _ hmode => exec_of_wordMove (.eoiTruncated hmode)

/-- Settles O28: the `SYN.*` commands are absorbed in a terminal mode (`execSynByte_terminal`, `execSynEoi_terminal`),
and the meanings of the `CRC.*` commands do not ask for the mode. -/
theorem terminalModesAbsorb : Obligations.TerminalModesAbsorb := by
  intro s hmode
  have hterminal := terminal_of_done_or_failed hmode
  exact ⟨fun d => execSynByte_terminal d s hterminal, execSynEoi_terminal s hterminal, rfl, fun _ => rfl⟩

end Sys2Proof.Proofs
end

section
/-! The frame parser (42_parser.md): the answers of `parse` on a Frame, the Message that `encode` writes, and the
hexadecimal digits of a datapoint id. -/

namespace Sys2Proof.Machine

open Sys2Proof

/-! ### The answers of `parse` -/

/-- A Frame with `L < 5` is `TooShort` (R90). -/
theorem parse_of_short {f : List Byte} (hf : isFrame f = true) (hshort : (byteAt f 4).toNat < 5) :
    parse f = .tooShort := by
  simp [parse, hf, minPayload, hshort]

/-- A Frame with `L >= 5` is parsed to its Message (R91). -/
theorem parse_of_long {f : List Byte} (hf : isFrame f = true) (hlong : 5 ≤ (byteAt f 4).toNat) :
    parse f = .message (messageOf f) := by
  simp [parse, hf, minPayload, Nat.not_lt.2 hlong]

section

variable (direction flags : Byte) (typeCode : TypeCode) (id : BytePair) (subindex : Byte) {data : List Byte}
  (trailer : BytePair) (hdata : data.length ≤ 250)

include hdata

/-- Up to 250 data bytes fit in a Frame (R45, R92). -/
theorem isFrame_frameBytes_framePayload :
    isFrame (frameBytes direction flags typeCode (framePayload id subindex data trailer)) = true :=
  isFrame_frameBytes _ _ _ _ (by rw [framePayload_length]; omega)

/-- A Frame written from its fields declares at least five payload bytes (R48). -/
theorem five_le_length_frameBytes :
    5 ≤ (byteAt (frameBytes direction flags typeCode (framePayload id subindex data trailer)) 4).toNat := by
  rw [byteAt_length_frameBytes, BitVec.toNat_ofNat, Nat.mod_eq_of_lt (by omega)]
  omega

/-- `parse` gives back the fields that a Frame was written from (R92, R93). -/
theorem parse_frameBytes :
    parse (frameBytes direction flags typeCode (framePayload id subindex data trailer)) = .message
      { isReply := direction == 0x01#8, flags := flags, payloadLength := BitVec.ofNat 8 (5 + data.length)
        typeCode := typeCode, datapointId := id, subindex := subindex, data := data, trailer := trailer } := by
  rw [parse_of_long (isFrame_frameBytes_framePayload _ _ _ _ _ _ hdata) (five_le_length_frameBytes _ _ _ _ _ _ hdata),
    messageOf_frameBytes _ _ _ _ _ _ _ hdata]

end

/-! ### `encode` -/

/-- A length byte leaves room for 250 data bytes (R100). -/
theorem data_length_le_of_wf {m : Message} (hm : m.wf = true) : m.data.length ≤ 250 := by
  have hlength := (message_wf_iff m).1 hm
  have := m.payloadLength.isLt
  omega

/-- `encode` of a Message is a Frame (R101). -/
theorem isFrame_encodeMessage {m : Message} (hm : m.wf = true) : isFrame (encodeMessage m) = true := by
  rw [encodeMessage_eq m hm]
  exact isFrame_frameBytes_framePayload _ _ _ _ _ _ (data_length_le_of_wf hm)

/-- The Frame that `encode` writes declares `L >= 5` (R101). -/
theorem five_le_length_encodeMessage {m : Message} (hm : m.wf = true) :
    5 ≤ (byteAt (encodeMessage m) 4).toNat := by
  rw [encodeMessage_eq m hm]
  exact five_le_length_frameBytes _ _ _ _ _ _ (data_length_le_of_wf hm)

/-- `parse` undoes `encode` (R101). -/
theorem parse_encodeMessage {m : Message} (hm : m.wf = true) : parse (encodeMessage m) = .message m := by
  have hlength : BitVec.ofNat 8 (5 + m.data.length) = m.payloadLength := by
    rw [← (message_wf_iff m).1 hm, BitVec.ofNat_toNat, BitVec.setWidth_eq]
  have hreply : ((if m.isReply then 0x01#8 else 0x00#8) == 0x01#8) = m.isReply := by cases m.isReply <;> rfl
  rw [encodeMessage_eq m hm, parse_frameBytes _ _ _ _ _ _ (data_length_le_of_wf hm), hlength, hreply]

/-- The Message of a Frame with `L >= 5` is in the domain of `encode` (R100). -/
theorem messageOf_wf {f : List Byte} (hf : isFrame f = true) (hlong : 5 ≤ (byteAt f 4).toNat) :
    (messageOf f).wf = true := by
  obtain ⟨direction, flags, typeCode, id, subindex, data, trailer, rfl, hdata, -⟩ :=
    exists_fields_of_isFrame f hf hlong
  rw [messageOf_frameBytes _ _ _ _ _ _ _ hdata, message_wf_iff, BitVec.toNat_ofNat, Nat.mod_eq_of_lt (by omega)]

/-- Writing the direction byte that a Frame has already changes nothing. -/
theorem set_direction_eq_self {f : List Byte} (hf : isFrame f = true) : f.set 2 (byteAt f 2) = f := by
  obtain ⟨dir, flags, len, t0, t1, t2, payload, rfl, -⟩ := (isFrame_iff f).1 hf
  rfl

/-! ### The digits of a datapoint id -/

/-- The digits are those of R8, in order. -/
theorem hexDigit_eq_getD {n : Nat} (h : n < 16) :
    hexDigit n =
      ['0', '1', '2', '3', '4', '5', '6', '7', '8', '9', 'A', 'B', 'C', 'D', 'E', 'F'].getD n '0' := by
  revert n
  decide

/-- `id_string` is the digits of the first byte, then those of the second (R94). -/
theorem idString_eq (m : Message) :
    idString m = [hexDigit (m.datapointId.first.toNat / 16), hexDigit (m.datapointId.first.toNat % 16),
      hexDigit (m.datapointId.second.toNat / 16), hexDigit (m.datapointId.second.toNat % 16)] := rfl

end Sys2Proof.Machine

namespace Sys2Proof.Proofs

open Sys2Proof Sys2Proof.Machine

/-- Settles O35: `parse` undoes `encode` (`parse_encodeMessage`), and `encode` of the Message of a Frame is the Frame
with the direction byte that R100 spells (`encodeMessage_messageOf`). -/
theorem parseAndEncodeRoundTrip : Obligations.ParseAndEncodeRoundTrip := by
  refine ⟨fun m hm => ⟨isFrame_encodeMessage hm, five_le_length_encodeMessage hm, parse_encodeMessage hm⟩,
    fun f m hf hlong hparse => ?_⟩
  obtain rfl : messageOf f = m := Parsed.message.inj ((parse_of_long hf hlong).symm.trans hparse)
  rw [encodeMessage_messageOf hf hlong]
  refine ⟨messageOf_wf hf hlong, ?_, fun _ hother => by rw [if_neg hother]⟩
  rintro (hrequest | hreply)
  · rw [if_neg (by rw [hrequest]; decide), ← hrequest, set_direction_eq_self hf]
  · rw [if_pos hreply, ← hreply, set_direction_eq_self hf]

/-- Settles O34: the slices are the fields (`parse_frameBytes`). -/
theorem parseSlicesTheFields : Obligations.ParseSlicesTheFields :=
  fun direction flags typeCode id subindex _ trailer hdata =>
    parse_frameBytes direction flags typeCode id subindex trailer hdata

/-- Settles O33: the Frame property is asked first, then the declared length (`parse_of_short`, `parse_of_long`). -/
theorem parseValidatesTheLength : Obligations.ParseValidatesTheLength := by
  refine fun f => ⟨fun hf hshort => ⟨parse_of_short hf hshort, fun cfg => ?_⟩, parse_of_long, parse_of_not_isFrame f⟩
  rw [parseAndCheck_of_isFrame cfg f hf, if_pos hshort]

/-- Settles O36: `trailer_value` is `w16` of the trailer bytes in the configured order, and `lo` and `hi` are the halves
of `w16` (`lo_w16`, `hi_w16`). -/
theorem trailerOrderPicksTheLowByte : Obligations.TrailerOrderPicksTheLowByte := by
  refine ⟨rfl, fun cfg m => ⟨fun horder => ?_, fun horder => ?_⟩⟩
  · simp [trailerValue, horder]
  · simp [trailerValue, horder]

/-- Settles O37: the four digits (`idString_eq`) are below sixteen, where `hexDigit` is the table of digits
(`hexDigit_eq_getD`). -/
theorem datapointIdRendering : Obligations.DatapointIdRendering := by
  unfold Obligations.DatapointIdRendering
  intro digit m
  have hhigh (b : Byte) : hexDigit (b.toNat / 16) = digit (b.toNat / 16) := hexDigit_eq_getD (by omega)
  have hlow (b : Byte) : hexDigit (b.toNat % 16) = digit (b.toNat % 16) := hexDigit_eq_getD (by omega)
  rw [idString_eq, hhigh, hlow, hhigh, hlow]

end Sys2Proof.Proofs
end

section
/-! `RESET` and the terminal modes (43_control.md): the state that `RESET` leaves, and what every other instruction keeps
once a pass has ended. -/

namespace Sys2Proof.Machine

open Sys2Proof

/-- `RESET` leaves the reset values of the three elements and one silent pair of slots, whatever the state (R21, R105). -/
theorem exec_reset_eq (s : State) :
    exec .reset s =
      .next { s with mode := .hunt, buf := [], crc := 0xFFFF#16, trace := s.trace ++ [⟨none, none⟩] } := rfl

/-- In a terminal mode a delivery of bytes keeps the mode and `buf` (R79). -/
theorem stream_keeps_mode_buf_of_terminal {bytes : List Byte} {s t : State} (hs : s.terminal = true)
    (h : stream bytes s = .next t) : t.mode = s.mode ∧ t.buf = s.buf := by
  rw [stream_of_terminal bytes hs] at h
  cases h
  exact ⟨rfl, rfl⟩

/-- In a terminal mode every instruction but `RESET`, the frame classes included, keeps the mode and `buf`: the `SYN.*`
commands are absorbed, the `CRC.*` commands write `crc` alone, and a frame is a delivery of bytes (R79, R82, R107). -/
theorem exec_keeps_mode_buf_of_terminal {i : Instr} {s t : State} (hs : s.terminal = true) (hi : i ≠ .reset)
    (h : exec i s = .next t) : t.mode = s.mode ∧ t.buf = s.buf := by
  cases i with
  | reset => exact absurd rfl hi
  | synByte d =>
    cases (execSynByte_terminal d s hs).symm.trans h
    exact ⟨rfl, rfl⟩
  | synEoi =>
    cases (execSynEoi_terminal s hs).symm.trans h
    exact ⟨rfl, rfl⟩
  | crcUpdate | crcInit =>
    cases h
    exact ⟨rfl, rfl⟩
  | frameReply | frameRequest | frameOther => exact stream_keeps_mode_buf_of_terminal hs h

end Sys2Proof.Machine

namespace Sys2Proof.Proofs

open Sys2Proof Sys2Proof.Machine

/-- Settles O2: `rst` is decoded first (`decodeWord_stepWord`), `RESET` leaves the same three elements from every state
(`exec_reset_eq`), and every other instruction keeps the mode and `buf` of a terminal state
(`exec_keeps_mode_buf_of_terminal`). -/
theorem resetForgetsThePass : Obligations.ResetForgetsThePass :=
  ⟨decodeWord_stepWord 1#1, fun s => ⟨_, exec_reset_eq s, rfl, exec_reset_eq _⟩,
    fun _ _ _ => exec_keeps_mode_buf_of_terminal⟩

end Sys2Proof.Proofs
end

section
/-! The events of a step (60_exceptions.md): each move emits one of the pairs of R123, and the moves that raise a
condition are the rows of the tables of R113 and R125. -/

namespace Sys2Proof.Machine

open Sys2Proof

/-! ### Legal pairs of slots -/

/-- The report of a completed Frame is a legal pair (R91, R92, R99). -/
theorem parseAndCheck_legal {cfg : Config} {f : List Byte} {o : Slots} (hf : isFrame f = true)
    (ho : parseAndCheck cfg f = some o) : o.legal cfg = true := by
  rw [parseAndCheck_of_isFrame cfg f hf, Option.some.injEq] at ho
  subst ho
  by_cases hshort : (byteAt f 4).toNat < 5
  · simp [Slots.legal, hshort, hf, minPayload]
  · have hwf := messageOf_wf hf (Nat.not_lt.1 hshort)
    by_cases hmatch : frameCrc f = trailerValue cfg (messageOf f)
    · simp [Slots.legal, hshort, hmatch, hwf]
    · simp [Slots.legal, hshort, hmatch, hwf]

/-- From a state that meets R17 every move emits a legal pair: `INCOMPLETE` reports the frame in progress that `buf`
holds, `OVERFLOW` a full buffer without a marker. -/
theorem WordMove.legal {s : State} {i : Instr} {mode : Mode} {buf : List Byte} {o : Slots}
    (h : WordMove s i mode buf o) (hs : s.inv = true) : o.legal s.cfg = true := by
  obtain ⟨-, hinv, hcap⟩ := (inv_iff s).1 hs
  cases h with
  | reset | crcInit | crcUpdate | byteAbsorbed | eoiAbsorbed | eoiClean | byteHunted | byteFramed => exact rfl
  | eoiTruncated hmode =>
    rw [hmode] at hinv
    exact hinv
  | markerFound _ _ before => cases before <;> exact rfl
  | overflowed _ hmode _ hfull =>
    rw [hmode] at hinv
    exact fullHunt_of_capExceeded hinv hcap hfull
  | frameDone _ _ hframe o hreport => exact parseAndCheck_legal hframe hreport

/-! ### Legal traces -/

/-- The inputs have no part in the trace. -/
@[simp] theorem takeInput_traceLegal (s : State) (rest : List Input) :
    (s.takeInput rest).traceLegal = s.traceLegal := rfl

theorem exec_word_traceLegal {s t : State} {sw : StepWord} (hs : s.inv = true) (hlegal : s.traceLegal = true)
    (h : exec (decodeWord sw) s = .next t) : t.traceLegal = true := by
  obtain ⟨o, hmove, -, htrace, hcfg, -⟩ := wordMove_of_exec s t sw h
  have ho := hmove.legal hs
  rw [State.traceLegal] at hlegal ⊢
  rw [htrace, hcfg, List.all_append, hlegal, List.all_cons, ho]
  rfl

theorem execSynByte_traceLegal {s t : State} {d : Byte} (hs : s.inv = true) (hlegal : s.traceLegal = true)
    (h : execSynByte d s = .next t) : t.traceLegal = true := by
  refine exec_word_traceLegal (sw := synByteWord d) hs hlegal ?_
  rw [decodeWord_synByteWord]
  exact h

theorem stream_traceLegal {bytes : List Byte} {s t : State} (hs : s.inv = true) (hlegal : s.traceLegal = true)
    (h : stream bytes s = .next t) : t.traceLegal = true := by
  induction bytes generalizing s with
  | nil => cases h; exact hlegal
  | cons b bytes ih =>
    rw [stream, andThen_eq_next] at h
    obtain ⟨u, hb, hbytes⟩ := h
    exact ih (execSynByte_inv hs hb) (execSynByte_traceLegal hs hlegal hb) hbytes

theorem step_traceLegal {s t : State} (hs : s.inv = true) (hlegal : s.traceLegal = true) (h : step s = .next t) :
    t.traceLegal = true := by
  obtain ⟨-, rfl⟩ | ⟨sw, rest, -, hword⟩ | ⟨f, rest, -, -, hburst⟩ := step_cases h
  · exact hlegal
  · exact exec_word_traceLegal ((takeInput_inv s rest).trans hs) ((takeInput_traceLegal s rest).trans hlegal) hword
  · exact stream_traceLegal ((takeInput_inv s rest).trans hs) ((takeInput_traceLegal s rest).trans hlegal) hburst

/-! ### The five conditions -/

/-- The rows of the tables of R113 and R125: the instruction that raises a condition in the state `s`, the mode and the
buffer after it, the primary event beside it, and the condition with the bytes concerned. -/
inductive Raises (s : State) : Instr → Mode → List Byte → Option Prim → Diag → Prop where
  | spurious (before : List Byte) (hmode : s.mode = .hunt) (hbuf : s.buf ++ [marker1] = before ++ marker)
      (hne : before ≠ []) : Raises s (.synByte marker1) .frame marker none (.spurious before)
  | tooShort (d : Byte) (hmode : s.mode = .frame) (hframe : isFrame (s.buf ++ [d]) = true)
      (hshort : (byteAt (s.buf ++ [d]) 4).toNat < 5) :
      Raises s (.synByte d) .hunt [] none (.tooShort (s.buf ++ [d]))
  | crcMismatch (d : Byte) (f : List Byte) (hmode : s.mode = .frame) (hf : f = s.buf ++ [d])
      (hframe : isFrame f = true) (hlong : 5 ≤ (byteAt f 4).toNat)
      (hmismatch : frameCrc f ≠ trailerValue s.cfg (messageOf f)) :
      Raises s (.synByte d) .hunt [] (some (.msg (messageOf f) (frameCrc f) false))
        (.crcMismatch (frameCrc f) (messageOf f).trailer)
  | incomplete (hmode : s.mode = .frame) :
      Raises s .synEoi .failed s.buf (some (.endOfPass false)) (.incomplete s.buf)
  | overflow (d : Byte) (hmode : s.mode = .hunt) (hmarker : endsInMarker (s.buf ++ [d]) = false)
      (hfull : capExceeded s.cfg.bufCap (s.buf.length + 1) = true) :
      Raises s (.synByte d) .failed s.buf (some (.endOfPass false)) (.overflow s.buf d)

/-- A marker found behind other bytes raises `SPURIOUS` with them; the byte that completes it is `00` (R75). -/
theorem raises_of_append_eq_append_marker {s : State} {d : Byte} {before : List Byte} {p : Option Prim} {x : Diag}
    (hmode : s.mode = .hunt) (hbuf : s.buf ++ [d] = before ++ marker)
    (ho : (⟨none, if before = [] then none else some (.spurious before)⟩ : Slots) = ⟨p, some x⟩) :
    Raises s (.synByte d) .frame marker p x := by
  obtain ⟨rfl, -⟩ := (endsInMarker_append_iff s.buf d).1 ((endsInMarker_iff _).2 ⟨before, hbuf⟩)
  by_cases hne : before = []
  · rw [if_pos hne] at ho
    cases ho
  · rw [if_neg hne] at ho
    cases ho
    exact .spurious before hmode hbuf hne

/-- A completed Frame raises `TOO_SHORT` below five payload bytes, otherwise `CRC_MISMATCH` when the check fails (R91,
R99). -/
theorem raises_of_parseAndCheck {s : State} {d : Byte} {p : Option Prim} {x : Diag} (hmode : s.mode = .frame)
    (hframe : isFrame (s.buf ++ [d]) = true) (ho : parseAndCheck s.cfg (s.buf ++ [d]) = some ⟨p, some x⟩) :
    Raises s (.synByte d) .hunt [] p x := by
  rw [parseAndCheck_of_isFrame s.cfg _ hframe] at ho
  split at ho
  case isTrue hshort =>
    cases ho
    exact .tooShort d hmode hframe hshort
  case isFalse hlong =>
    split at ho
    case isTrue => cases ho
    case isFalse hmismatch =>
      cases ho
      exact .crcMismatch d _ hmode rfl hframe (Nat.not_lt.1 hlong) hmismatch

/-- A move with a diagnostic is a row of the tables of R113 and R125. -/
theorem WordMove.raises {s : State} {i : Instr} {mode : Mode} {buf : List Byte} {o : Slots} {p : Option Prim} {x : Diag}
    (h : WordMove s i mode buf o) (ho : o = ⟨p, some x⟩) : Raises s i mode buf p x := by
  cases h with
  | reset | crcInit | crcUpdate | byteAbsorbed | eoiAbsorbed | eoiClean | byteHunted | byteFramed => cases ho
  | eoiTruncated hmode => cases ho; exact .incomplete hmode
  | markerFound d hmode before hbuf => exact raises_of_append_eq_append_marker hmode hbuf ho
  | overflowed d hmode hmarker hfull => cases ho; exact .overflow d hmode hmarker hfull
  | frameDone d hmode hframe o hreport => exact raises_of_parseAndCheck hmode hframe (hreport.trans (congrArg some ho))

/-- No condition is raised by an instruction that writes `crc` (R13, R125). -/
theorem Raises.crcAfter_eq {s : State} {i : Instr} {mode : Mode} {buf : List Byte} {p : Option Prim} {x : Diag}
    (h : Raises s i mode buf p x) (c : Word16) : crcAfter i c = c := by
  cases h <;> rfl

/-- A fatal condition ends the pass unclean, in mode `FAILED` (R117, R118). -/
theorem Raises.of_fatal {s : State} {i : Instr} {mode : Mode} {buf : List Byte} {p : Option Prim} {x : Diag}
    (h : Raises s i mode buf p x) (hfatal : x.fatal = true) : p = some (.endOfPass false) ∧ mode = .failed := by
  cases h with
  | spurious | tooShort | crcMismatch => cases hfatal
  | incomplete | overflow => exact ⟨rfl, rfl⟩

/-- The finite capacity that an overflow needs; under R17 the buffer fills it (R17 item 5, R78). -/
theorem exists_bufCap_of_capExceeded {s : State} (hfull : capExceeded s.cfg.bufCap (s.buf.length + 1) = true) :
    ∃ n, s.cfg.bufCap = .bounded n ∧ n < s.buf.length + 1 ∧ (s.inv = true → n = s.buf.length) := by
  obtain ⟨n, hcap, hlt⟩ := capExceeded_iff.1 hfull
  refine ⟨n, hcap, hlt, fun hs => ?_⟩
  obtain ⟨-, -, hwithin⟩ := (inv_iff s).1 hs
  exact BufCap.bounded.inj (hcap.symm.trans (full_of_capExceeded s hwithin hfull))

end Sys2Proof.Machine

namespace Sys2Proof.Proofs

open Sys2Proof Sys2Proof.Machine

/-- Settles O47: under R17 every move emits a legal pair (`WordMove.legal`), and a step is a move or a delivery of
bytes, each of which is one (`step_traceLegal`). -/
theorem everyStepEmitsALegalPair : Obligations.EveryStepEmitsALegalPair := fun _ _ => step_traceLegal

/-- Settles O50: the step is a move with a diagnostic, hence a row of the tables (`WordMove.raises`); a fatal one leaves
mode `FAILED` (`Raises.of_fatal`), where the `SYN.*` commands are absorbed. -/
theorem conditionsChangeTheStateAsTabled : Obligations.ConditionsChangeTheStateAsTabled := by
  intro s t sw p x h hdiag
  obtain ⟨o, hmove, hcrc, htrace, hcfg, hinput⟩ := wordMove_of_exec s t sw h
  have ho : o = ⟨p, some x⟩ := List.singleton_inj.1 (List.append_cancel_left (htrace.symm.trans hdiag))
  have hraises := hmove.raises ho
  refine ⟨hcrc.trans (hraises.crcAfter_eq s.crc), hcfg, hinput, fun hfatal => ?_, ?_⟩
  · obtain ⟨hp, hmode⟩ := hraises.of_fatal hfatal
    have hterminal := terminal_of_done_or_failed (.inr hmode)
    exact ⟨hp, execSynEoi_terminal t hterminal, fun d => execSynByte_terminal d t hterminal⟩
  · generalize decodeWord sw = i, t.mode = mode, t.buf = buf at hraises ⊢
    cases hraises with
    | spurious before hmode hbuf hne => exact ⟨rfl, rfl, rfl, rfl, hmode, hbuf, hne, rfl, rfl⟩
    | tooShort d hmode hframe hshort => exact ⟨rfl, rfl, rfl, ⟨d, rfl, rfl⟩, hmode, hframe, hshort, rfl, rfl⟩
    | crcMismatch d f hmode hf hframe hlong hmismatch =>
      exact ⟨rfl, rfl, hmode, ⟨d, f, rfl, hf, hframe, hlong, rfl, rfl, hmismatch, rfl⟩, rfl, rfl⟩
    | incomplete hmode => exact ⟨rfl, rfl, rfl, hmode, rfl, rfl, rfl⟩
    | overflow d hmode hmarker hfull =>
      exact ⟨rfl, rfl, rfl, hmode, rfl, (endsInMarker_eq_false_iff _).1 hmarker, exists_bufCap_of_capExceeded hfull,
        rfl, rfl⟩

end Sys2Proof.Proofs
end
